-- ==== Sys2Proof/Word.lean ====
section
/-! DEFINITION. The widths the block moves: a byte (spec R7), a command word (R70), a response word (R72). -/

namespace Sys2Proof

/-- A byte, an unsigned value 0 to 255 (R7). -/
abbrev Byte := BitVec 8

/-- The 16-bit command word `cmd[15:0]` (R70). -/
abbrev CmdWord := BitVec 16

/-- The 16-bit response word `rsp[15:0]` (R72). -/
abbrev RspWord := BitVec 16

end Sys2Proof
end

