-- ==== Sys2Proof/Syntax.lean ====
section
/-! DEFINITION. The sixteen commands of spec R74, one constructor per row of spec/opcode_table.json. -/

namespace Sys2Proof

/-- A command. A data byte is a `Byte`; an index is the number `zext(operand)` (R71); a command whose operand is
ignored carries none, since all 256 operand values select the same command with the same effect (R71; log 8). -/
inductive Instr where
  | crcInit                -- R104
  | crcUpd (b : Byte)      -- R105
  | crcRd                  -- R106
  | encInit                -- R121
  | encPut (b : Byte)      -- R122
  | encLen                 -- R123
  | encRd (i : Nat)        -- R124
  | pktInit                -- R141
  | pktPut (b : Byte)      -- R142
  | pktChk                 -- R144
  | pktRd (i : Nat)        -- R145
  | decInit                -- R161
  | decPush (b : Byte)     -- R162
  | decStat                -- R168
  | decLen                 -- R169
  | decRd (i : Nat)        -- R170
  deriving DecidableEq, Repr

/-- The four units of the block (R16, R70). -/
inductive UnitName where
  | crc | enc | pkt | dec
  deriving DecidableEq, Repr

/-- The unit a command belongs to (R74). -/
def Instr.unit : Instr → UnitName
  | .crcInit | .crcUpd _ | .crcRd => .crc
  | .encInit | .encPut _ | .encLen | .encRd _ => .enc
  | .pktInit | .pktPut _ | .pktChk | .pktRd _ => .pkt
  | .decInit | .decPush _ | .decStat | .decLen | .decRd _ => .dec

/-- The operand column of R74. -/
inductive OperandUse where
  | ignored | dataByte | index
  deriving DecidableEq, Repr

/-- How a command uses `cmd[7:0]` (R74). -/
def Instr.operandUse : Instr → OperandUse
  | .crcUpd _ | .encPut _ | .pktPut _ | .decPush _ => .dataByte
  | .encRd _ | .pktRd _ | .decRd _ => .index
  | .crcInit | .crcRd | .encInit | .encLen | .pktInit | .pktChk | .decInit | .decStat | .decLen => .ignored

end Sys2Proof
end

