-- ==== Sys2Proof/WellFormed.lean ====
section
/-! DEFINITION. Which commands an 8-bit operand can express: an index is 0 to 255 (spec R71, R78). -/

namespace Sys2Proof

/-- The check on an index operand: it fits `cmd[7:0]`. -/
def indexFits (i : Nat) : Bool := i < 256

/-- A command that some 16-bit word encodes. A data byte always fits. -/
def Instr.wf : Instr → Bool
  | .encRd i | .pktRd i | .decRd i => indexFits i
  | .crcInit | .crcUpd _ | .crcRd | .encInit | .encPut _ | .encLen | .pktInit | .pktPut _ | .pktChk
  | .decInit | .decPush _ | .decStat | .decLen => true

end Sys2Proof
end

