-- ==== Sys2Proof/Decode.lean ====
section
/-! DEFINITION. The decoder of command words (spec R70, R71, R74, R75), total and rejecting by name, and the encoder. -/

namespace Sys2Proof

/-- `cmd[15:12]` (R70). -/
def cmdUnit (w : CmdWord) : BitVec 4 := w.extractLsb' 12 4

/-- `cmd[11:8]` (R70). -/
def cmdFunc (w : CmdWord) : BitVec 4 := w.extractLsb' 8 4

/-- `cmd[15:8]`, the opcode (R70). -/
def cmdOpcode (w : CmdWord) : Byte := w.extractLsb' 8 8

/-- `cmd[7:0]` as a data byte: used as it stands (R71). -/
def operandByte (w : CmdWord) : Byte := w.extractLsb' 0 8

/-- `cmd[7:0]` as an index: `zext`, not scaled, shifted or sign-extended (R71). -/
def operandIndex (w : CmdWord) : Nat := (operandByte w).toNat

/-- Why a word is no command (R75): its unit is reserved, or its function within one of the four units is. -/
inductive Reserved where
  | unit (u : BitVec 4)
  | func (u f : BitVec 4)
  deriving DecidableEq, Repr

/-- The decoder: every 16-bit word is one of the sixteen commands of R74 or reserved by R75. -/
def decode (w : CmdWord) : Except Reserved Instr :=
  match (cmdUnit w).toNat, (cmdFunc w).toNat with
  | 0, 0 => .ok .crcInit
  | 0, 1 => .ok (.crcUpd (operandByte w))
  | 0, 2 => .ok .crcRd
  | 1, 0 => .ok .encInit
  | 1, 1 => .ok (.encPut (operandByte w))
  | 1, 2 => .ok .encLen
  | 1, 3 => .ok (.encRd (operandIndex w))
  | 2, 0 => .ok .pktInit
  | 2, 1 => .ok (.pktPut (operandByte w))
  | 2, 2 => .ok .pktChk
  | 2, 3 => .ok (.pktRd (operandIndex w))
  | 3, 0 => .ok .decInit
  | 3, 1 => .ok (.decPush (operandByte w))
  | 3, 2 => .ok .decStat
  | 3, 3 => .ok .decLen
  | 3, 4 => .ok (.decRd (operandIndex w))
  | 0, _ | 1, _ | 2, _ | 3, _ => .error (.func (cmdUnit w) (cmdFunc w))
  | _, _ => .error (.unit (cmdUnit w))

/-- The table's word as the host's tools number it: the one 16-bit word itself. A row of this table has 16 bits;
`none` where the decoder rejects the word. -/
def decodeTableWord (nbits w : Nat) : Option Instr :=
  (decode (BitVec.ofNat 16 (w % 2 ^ nbits))).toOption

/-- Format `C` (R70): unit, func, operand. -/
def formatC (unit func : BitVec 4) (operand : Byte) : CmdWord := unit ++ func ++ operand

/-- The operand byte of an index (well-formed: below 256). -/
def indexByte (i : Nat) : Byte := BitVec.ofNat 8 i

/-- The encoder, from R74's opcode column; an ignored operand is 0x00 (R71). -/
def encode : Instr → CmdWord
  | .crcInit   => formatC 0 0 0x00
  | .crcUpd b  => formatC 0 1 b
  | .crcRd     => formatC 0 2 0x00
  | .encInit   => formatC 1 0 0x00
  | .encPut b  => formatC 1 1 b
  | .encLen    => formatC 1 2 0x00
  | .encRd i   => formatC 1 3 (indexByte i)
  | .pktInit   => formatC 2 0 0x00
  | .pktPut b  => formatC 2 1 b
  | .pktChk    => formatC 2 2 0x00
  | .pktRd i   => formatC 2 3 (indexByte i)
  | .decInit   => formatC 3 0 0x00
  | .decPush b => formatC 3 1 b
  | .decStat   => formatC 3 2 0x00
  | .decLen    => formatC 3 3 0x00
  | .decRd i   => formatC 3 4 (indexByte i)

end Sys2Proof
end

