-- ==== Sys2Proof/Config.lean ====
section
/-! DEFINITION. What an implementation fixes (spec R8) and the free values that the spec leaves open (R80, R221, R232).
The values of this hardware stand in Machine/Params.lean. -/

namespace Sys2Proof

/-- The named constants of R8. `table` is the 256-byte lookup table `T`, index 0 first. -/
structure Config where
  header     : Byte
  maxPayload : Nat
  minPacket  : Nat
  crcSeed    : Byte
  pktCap     : Nat
  table      : List Byte
  deriving DecidableEq, Repr

/-- FREE VALUE (log 10). The `k`-th count of clock edges the block takes before it is ready: from a command's acceptance
to its response (R232), from the fall of `rst` to `cmd_ready` (R221), from a delivery to the next `cmd_ready`. Finite, otherwise unspecified. -/
opaque Config.edges : Nat → Nat

/-- FREE VALUE (log 10). What `rsp` carries while `rsp_valid` is 0, about which R80 says nothing. -/
opaque Config.undrivenRsp : Nat → RspWord

/-- FREE VALUE (log 10). `cmd_ready` (0) and `rsp_valid` (1) before the first reset, "unspecified" by R221. -/
opaque Config.powerUpWire : Nat → Bool

end Sys2Proof
end

