-- ==== Sys2Proof/Machine/State.lean ====
section
/-! DEFINITION. The state of the block (spec R20), the statuses (R73), the reasons a step can stop, and the state after reset (R36, R220). -/

namespace Sys2Proof.Machine

/-- `DEC_STATE`, five constructors as R26 asks; the codes stand in Machine/Operands.lean. -/
inductive DecState where
  | awaitingHeader | awaitingLength | awaitingData | awaitingCrc | ready
  deriving DecidableEq, Repr

/-- The response statuses of R73, exactly eight (93 U6). -/
inductive Status where
  | ok | lengthErr | headerErr | lengthFieldErr | crcErr | rangeErr | stateErr | illegalCmd
  deriving DecidableEq, Repr

/-- One buffer's bytes: (index, byte) pairs, indices strictly rising, none equal to what an unlisted index reads as
(`Memory.fill`, Machine/Ops.lean). The three buffers are three address spaces (R50). -/
abbrev Memory := List Host.Cell

/-- The whole state: the eleven items of R20, and the model's own two ends of the command port. -/
structure State where
  /-- `CRC_ACC`, 8 bits (R25). -/
  crcAcc    : Byte
  /-- `ENC_BUF[0..31]` (R32). -/
  encBuf    : Memory
  /-- `ENC_LEN`, 6 bits, 0..32 (R29). -/
  encLen    : BitVec 6
  /-- `ENC_OVF`, 1 bit (R24, R29). -/
  encOvf    : Bool
  /-- `PKT_BUF[0..257]` (R32). -/
  pktBuf    : Memory
  /-- `PKT_LEN`, 9 bits, 0..258 (R30). -/
  pktLen    : BitVec 9
  /-- `PKT_OVF`, 1 bit (R24, R30). -/
  pktOvf    : Bool
  /-- `DEC_STATE`, codes 0..4 (R26). -/
  decState  : DecState
  /-- `DEC_EXPLEN`, 6 bits, 0..32 (R27). -/
  decExpLen : BitVec 6
  /-- `DEC_BUF[0..31]` (R32). -/
  decBuf    : Memory
  /-- `DEC_CNT`, 6 bits, 0..32 (R28). -/
  decCnt    : BitVec 6
  /-- The model's own input end: the command words the host will send, next first (R10, R23; log 1). -/
  cmdIn     : List CmdWord
  /-- The model's own output end: the response words given, oldest first (R72, R224; log 2). -/
  rspOut    : List RspWord
  deriving DecidableEq, Repr

/-- Reasons to stop with a fault: there are none. "The block never halts, faults or stops of itself" (R224), it has no
traps (R9, R201), and every condition the document calls an error is a response status (R11, R190). Safe. -/
inductive Fault where
  deriving DecidableEq, Repr

/-- Reasons the model gives no meaning. -/
inductive Refusal where
  /-- An instruction that has no meaning yet; no arm of `exec` raises it. Safe. -/
  | notModelled (mnemonic : String)
  /-- Raised by every command in a bit pattern that R35's invariants exclude: "this spec gives no behaviour and a model
  should refuse it" (R35, 93 U7). No run from reset reaches one. Safe. Log 6. -/
  | unreachableState
  /-- Raised by a clock edge of the pin-level model before the first reset, where state and outputs are unspecified
  (R221, 93 U9: "refuse"). Safe. Log 12. -/
  | beforeFirstReset
  deriving DecidableEq, Repr

/-- The state after reset (R36, R220). The buffers list nothing (contents unspecified, R222 lets them be any value; log 5),
and the host has neither sent nor received anything (logs 1, 2, 4). -/
def State.reset : State where
  crcAcc    := 0x00
  encBuf    := []
  encLen    := 0
  encOvf    := false
  pktBuf    := []
  pktLen    := 0
  pktOvf    := false
  decState  := .awaitingHeader
  decExpLen := 0
  decBuf    := []
  decCnt    := 0
  cmdIn     := []
  rspOut    := []

end Sys2Proof.Machine
end

