-- ==== Sys2Proof/Machine/Ops.lean ====
section
/-! DEFINITION. The named operations over buffers and registers: byte access (spec R14, R52), the response (R72, R73, R190),
the legal states (R35), and reset (R220). -/

namespace Sys2Proof.Machine

/-! ### Buffers -/

/-- What an unlisted byte of a buffer reads as (log 5): the spec leaves it unspecified, and no command observes it (R33). -/
def Memory.fill : Byte := 0x00

/-- `BUF[i]` (R14): one byte, no extension (R52). -/
def Memory.read : Memory → Nat → Byte
  | [], _ => Memory.fill
  | (k, v) :: m, a => if k = a then v else Memory.read m a

/-- The buffer without its entry at `a`. -/
def Memory.erase (m : Memory) (a : Nat) : Memory := m.filter (fun c => c.1 != a)

/-- A new entry put in its place by index. -/
def Memory.insert : Memory → Nat → Byte → Memory
  | [], a, v => [(a, v)]
  | (k, w) :: m, a, v => if a < k then (a, v) :: (k, w) :: m else (k, w) :: Memory.insert m a v

/-- `BUF[i] <- v` (R14): one byte; the canonical form is kept. -/
def Memory.write (m : Memory) (a : Nat) (v : Byte) : Memory :=
  if v = Memory.fill then Memory.erase m a else Memory.insert (Memory.erase m a) a v

/-- The half-open slice `BUF[lo..hi)` (R12). -/
def Memory.slice (m : Memory) (lo hi : Nat) : List Byte :=
  (List.range (hi - lo)).map (fun k => Memory.read m (lo + k))

/-- The canonical form: indices strictly rising, no entry equal to what an unlisted index reads as. -/
def Memory.wf : Memory → Bool
  | [] => true
  | [(_, v)] => v != Memory.fill
  | (k, v) :: (l, w) :: m => v != Memory.fill && decide (k < l) && Memory.wf ((l, w) :: m)

/-- Every listed index lies in a buffer of `cap` bytes (R50). -/
def Memory.within (m : Memory) (cap : Nat) : Bool := m.all (fun c => decide (c.1 < cap))

/-! ### Responses -/

/-- The status codes of R73. -/
def statusCode : Status → BitVec 4
  | .ok => 0x0
  | .lengthErr => 0x1
  | .headerErr => 0x2
  | .lengthFieldErr => 0x3
  | .crcErr => 0x4
  | .rangeErr => 0x5
  | .stateErr => 0x6
  | .illegalCmd => 0x7

/-- The response word: zero, status, data (R72). -/
def rspWord (st : Status) (data : Byte) : RspWord := 0b0000#4 ++ statusCode st ++ data

/-- `respond(S, d)` (R14): the command's one response word. -/
def State.respond (s : State) (st : Status) (data : Byte) : State :=
  { s with rspOut := s.rspOut ++ [rspWord st data] }

/-- What the block does in place of taking an exception (R190, R201): the error is the status of the response, its data
is 0x00, no state is saved and control goes nowhere. What a program does to return from one is the unit's INIT (R202). -/
def State.respondErr (s : State) (st : Status) : State := s.respond st 0x00

/-! ### Legal states -/

/-- R35, framer. -/
abbrev State.EncLegal (s : State) : Prop :=
  s.encLen.toNat ≤ hw.maxPayload ∧ (s.encOvf = true → s.encLen.toNat = hw.maxPayload)

/-- R35, deframer. -/
abbrev State.PktLegal (s : State) : Prop :=
  s.pktLen.toNat ≤ hw.pktCap ∧ (s.pktOvf = true → s.pktLen.toNat = hw.pktCap)

/-- R35, stream decoder. -/
abbrev State.DecLegal (s : State) : Prop :=
  s.decExpLen.toNat ≤ hw.maxPayload ∧ s.decCnt.toNat ≤ s.decExpLen.toNat ∧
  (s.decState = .awaitingHeader ∨ s.decState = .awaitingLength → s.decCnt = 0 ∧ s.decExpLen = 0) ∧
  (s.decState = .awaitingData → s.decCnt.toNat < s.decExpLen.toNat) ∧
  (s.decState = .awaitingCrc ∨ s.decState = .ready → s.decCnt = s.decExpLen)

/-- The bit patterns the spec gives behaviour for: the invariants of R35. -/
abbrev State.Legal (s : State) : Prop := s.EncLegal ∧ s.PktLegal ∧ s.DecLegal

/-- A command's outcome: its effect in a legal state; in any other bit pattern "this spec gives no behaviour and a model
should refuse it" (R35, 93 U7; log 6). -/
def onLegal (s s' : State) : Host.Outcome State Fault Refusal :=
  if s.Legal then .next s' else .refused .unreachableState

/-! ### Reset -/

/-- Reset by `rst` (R220): every counter, flag and `CRC_ACC`, and the decoder's state; the buffer bytes are left as they
stand (unspecified and unobservable; log 11). -/
def State.resetBlock (s : State) : State :=
  { s with crcAcc := 0x00, encLen := 0, encOvf := false, pktLen := 0, pktOvf := false
           decState := .awaitingHeader, decExpLen := 0, decCnt := 0 }

end Sys2Proof.Machine
end

