-- ==== Sys2Proof/Machine/Contracts.lean ====
section
/-! DEFINITION. The document's pure functions of byte sequences: `crc8` (spec R103), `encode` (R120), `decode` (R140). -/

namespace Sys2Proof.Machine

/-- One update of an accumulator by a byte: `T[a xor b]` (R100, R105). -/
def crcStep (a b : Byte) : Byte := T (a ^^^ b)

/-- The fold of R103 started at `a` (R107). -/
def crcFold (a : Byte) (s : List Byte) : Byte := s.foldl crcStep a

/-- `crc8(s)` (R103): pure; reads no register. -/
def crc8 (s : List Byte) : Byte := crcFold hw.crcSeed s

/-- `s[a..b)` of a byte sequence (R12). -/
def seqSlice (s : List Byte) (a b : Nat) : List Byte := (s.take b).drop a

/-- `encode(p)` (R120); an error is named by its response status. -/
def encodePacket (p : List Byte) : Except Status (List Byte) :=
  if p.length > hw.maxPayload then .error .lengthErr
  else .ok ([hw.header, BitVec.ofNat 8 p.length] ++ p ++ [crc8 p])

/-- `decode(k)` (R140): four checks in order, the first that fails gives the result. -/
def decodePacket (k : List Byte) : Except Status (List Byte) :=
  let n := k.length
  if n < hw.minPacket then .error .lengthErr
  else if k.getD 0 0 ≠ hw.header then .error .headerErr
  else if (k.getD 1 0).toNat ≠ n - 3 then .error .lengthFieldErr
  else if k.getD (n - 1) 0 ≠ crc8 (seqSlice k 2 (n - 1)) then .error .crcErr
  else .ok (seqSlice k 2 (n - 1))

end Sys2Proof.Machine
end

