-- ==== Sys2Proof/Machine/Crc.lean ====
section
/-! DEFINITION. Unit 0, the CRC unit (spec 40_crc.md): CRC.INIT, CRC.UPD, CRC.RD. -/

namespace Sys2Proof.Machine

/-- CRC.INIT (R104). -/
def execCrcInit (s : State) : Host.Outcome State Fault Refusal :=
  onLegal s (State.respond { s with crcAcc := hw.crcSeed } .ok 0x00)

/-- CRC.UPD b (R105): the response carries the new value. -/
def execCrcUpd (b : Byte) (s : State) : Host.Outcome State Fault Refusal :=
  onLegal s (State.respond { s with crcAcc := crcStep s.crcAcc b } .ok (crcStep s.crcAcc b))

/-- CRC.RD (R106). -/
def execCrcRd (s : State) : Host.Outcome State Fault Refusal :=
  onLegal s (s.respond .ok s.crcAcc)

end Sys2Proof.Machine
end

