-- ==== Sys2Proof/Machine/Operands.lean ====
section
/-! DEFINITION. The addressing modes (spec R51), the readable ranges (R50), and the values returned in `data` (R13, R26, R74). -/

namespace Sys2Proof.Machine

/-- `ENC_CAP` (R8). -/
def encCap : Nat := hw.maxPayload

/-- `PKT_CAP` (R8). -/
def pktCap : Nat := hw.pktCap

/-! Append mode (R51 a): the index is the unit's counter, which is then incremented by one. -/

/-- `ENC_BUF[ENC_LEN] <- b; ENC_LEN <- ENC_LEN + 1` (R122). -/
def State.encAppend (s : State) (b : Byte) : State :=
  { s with encBuf := s.encBuf.write s.encLen.toNat b, encLen := s.encLen + 1 }

/-- `PKT_BUF[PKT_LEN] <- b; PKT_LEN <- PKT_LEN + 1` (R142). -/
def State.pktAppend (s : State) (b : Byte) : State :=
  { s with pktBuf := s.pktBuf.write s.pktLen.toNat b, pktLen := s.pktLen + 1 }

/-- `DEC_BUF[DEC_CNT] <- b; DEC_CNT <- DEC_CNT + 1` (R165). -/
def State.decAppend (s : State) (b : Byte) : State :=
  { s with decBuf := s.decBuf.write s.decCnt.toNat b, decCnt := s.decCnt + 1 }

/-! Indexed read mode (R51 b): the effective buffer index of an operand index. -/

/-- `ENC.RD`: `i - 2`, for `2 <= i <= ENC_LEN + 1`. -/
def encReadIndex (i : Nat) : Nat := i - 2

/-- `PKT.RD`: `i + 2`. -/
def pktReadIndex (i : Nat) : Nat := i + 2

/-- `DEC.RD`: `i`. -/
def decReadIndex (i : Nat) : Nat := i

/-! The filled part of each buffer. -/

/-- `ENC_BUF[0..ENC_LEN)`, the payload (R125). -/
def State.encPayload (s : State) : List Byte := s.encBuf.slice 0 s.encLen.toNat

/-- `PKT_BUF[0..PKT_LEN)`, the packet. -/
def State.pktPacket (s : State) : List Byte := s.pktBuf.slice 0 s.pktLen.toNat

/-- `PKT_BUF[2..L-1)`, the payload slice of the packet (R143). -/
def State.pktPayload (s : State) : List Byte := s.pktBuf.slice 2 (s.pktLen.toNat - 1)

/-- `DEC_BUF[0..DEC_CNT)`, the payload (R166). -/
def State.decPayload (s : State) : List Byte := s.decBuf.slice 0 s.decCnt.toNat

/-! Values returned in `data`. -/

/-- `zext_8` of a length or count, which fits a byte (R13, R15 d). -/
def lenByte (n : Nat) : Byte := BitVec.ofNat 8 n

/-- The codes of `DEC_STATE` (R26). -/
def decStateCode : DecState → BitVec 3
  | .awaitingHeader => 0
  | .awaitingLength => 1
  | .awaitingData => 2
  | .awaitingCrc => 3
  | .ready => 4

/-- `zext_8(DEC_STATE)` (R162, R168). -/
def decStateByte (d : DecState) : Byte := (decStateCode d).setWidth 8

end Sys2Proof.Machine
end

