-- ==== Sys2Proof/Machine/Flags.lean ====
section
/-! DEFINITION. The block's two sticky flags, `ENC_OVF` and `PKT_OVF` (spec R24), the only flags it has. -/

namespace Sys2Proof.Machine

/-- The framer can take a byte: `ENC_OVF == 0 and ENC_LEN < 32` (R122). -/
abbrev State.EncHasRoom (s : State) : Prop := s.encOvf = false ∧ s.encLen.toNat < encCap

/-- The deframer can take a byte: `PKT_LEN < 258` (R142). -/
abbrev State.PktHasRoom (s : State) : Prop := s.pktLen.toNat < pktCap

/-- `ENC_OVF <- 1`: an `ENC.PUT` found 32 bytes already there (R24, R122). -/
def State.setEncOvf (s : State) : State := { s with encOvf := true }

/-- `PKT_OVF <- 1`: a `PKT.PUT` found 258 bytes already there (R24, R142). -/
def State.setPktOvf (s : State) : State := { s with pktOvf := true }

/-- `ENC_LEN <- 0; ENC_OVF <- 0`: the only way, with reset, to clear `ENC_OVF` (R24, R121). -/
def State.clearEnc (s : State) : State := { s with encLen := 0, encOvf := false }

/-- `PKT_LEN <- 0; PKT_OVF <- 0`: the only way, with reset, to clear `PKT_OVF` (R24, R141). -/
def State.clearPkt (s : State) : State := { s with pktLen := 0, pktOvf := false }

end Sys2Proof.Machine
end

