-- ==== Sys2Proof/Machine/Decoder.lean ====
section
/-! DEFINITION. Unit 3, the stream decoder (spec 43_stream_decoder.md): DEC.INIT, DEC.PUSH, DEC.STAT, DEC.LEN, DEC.RD. -/

namespace Sys2Proof.Machine

/-- `DEC_STATE <- d; respond(OK, code of d)` (R162). -/
def State.decGoto (s : State) (d : DecState) : State :=
  State.respond { s with decState := d } .ok (decStateByte d)

/-- DEC.PUSH in AwaitingHeader (R163). -/
def decPushHeader (b : Byte) (s : State) : State :=
  if b = hw.header then s.decGoto .awaitingLength else s.respondErr .headerErr

/-- DEC.PUSH in AwaitingLength (R164): the comparison is unsigned (R15 e). -/
def decPushLength (b : Byte) (s : State) : State :=
  if b.toNat ≤ hw.maxPayload then
    State.decGoto { s with decExpLen := b.setWidth 6 } (if b = 0 then .awaitingCrc else .awaitingData)
  else s.respondErr .lengthFieldErr

/-- DEC.PUSH in AwaitingData (R165): the comparison is made after the append. -/
def decPushData (b : Byte) (s : State) : State :=
  let s' := s.decAppend b
  s'.decGoto (if s'.decCnt = s'.decExpLen then .awaitingCrc else .awaitingData)

/-- DEC.PUSH in AwaitingCRC (R166). -/
def decPushCrc (b : Byte) (s : State) : State :=
  if b = crc8 s.decPayload then s.decGoto .ready else s.respondErr .crcErr

/-- DEC.PUSH in Ready (R167): the byte is not taken. -/
def decPushReady (s : State) : State := s.respondErr .stateErr

/-- DEC.INIT (R161); the buffer is not cleared. -/
def execDecInit (s : State) : Host.Outcome State Fault Refusal :=
  onLegal s (State.respond { s with decState := .awaitingHeader, decExpLen := 0, decCnt := 0 } .ok 0x00)

/-- DEC.PUSH b (R162). -/
def execDecPush (b : Byte) (s : State) : Host.Outcome State Fault Refusal :=
  onLegal s
    (match s.decState with
     | .awaitingHeader => decPushHeader b s
     | .awaitingLength => decPushLength b s
     | .awaitingData => decPushData b s
     | .awaitingCrc => decPushCrc b s
     | .ready => decPushReady s)

/-- DEC.STAT (R168). -/
def execDecStat (s : State) : Host.Outcome State Fault Refusal :=
  onLegal s (s.respond .ok (decStateByte s.decState))

/-- DEC.LEN (R169). -/
def execDecLen (s : State) : Host.Outcome State Fault Refusal :=
  onLegal s (s.respond .ok (lenByte s.decCnt.toNat))

/-- DEC.RD i (R170): `STATE_ERR` before `RANGE_ERR` (R199). -/
def execDecRd (i : Nat) (s : State) : Host.Outcome State Fault Refusal :=
  onLegal s
    (if s.decState ≠ .ready then s.respondErr .stateErr
     else if i ≥ s.decCnt.toNat then s.respondErr .rangeErr
     else s.respond .ok (s.decBuf.read (decReadIndex i)))

end Sys2Proof.Machine
end

