-- ==== Sys2Proof/Machine/Deframer.lean ====
section
/-! DEFINITION. Unit 2, the whole-packet deframer (spec 42_deframer.md): PKT.INIT, PKT.PUT, PKT.CHK, PKT.RD. -/

namespace Sys2Proof.Machine

/-- `pkt_verdict` (R143): the first line that applies. Line 3's `L - 3` is computed only with `L >= 4`. -/
def pktVerdict (s : State) : Status :=
  let L := s.pktLen.toNat
  if s.pktOvf = false ∧ L < hw.minPacket then .lengthErr
  else if s.pktBuf.read 0 ≠ hw.header then .headerErr
  else if s.pktOvf = true ∨ (s.pktBuf.read 1).toNat ≠ L - 3 then .lengthFieldErr
  else if s.pktBuf.read (L - 1) ≠ crc8 s.pktPayload then .crcErr
  else .ok

/-- PKT.INIT (R141); the buffer is not cleared. -/
def execPktInit (s : State) : Host.Outcome State Fault Refusal :=
  onLegal s (s.clearPkt.respond .ok 0x00)

/-- PKT.PUT b (R142): always `OK`; a byte past the 258th is dropped and sets `PKT_OVF`. -/
def execPktPut (b : Byte) (s : State) : Host.Outcome State Fault Refusal :=
  onLegal s ((if s.PktHasRoom then s.pktAppend b else s.setPktOvf).respond .ok 0x00)

/-- PKT.CHK (R144): the payload's length, `PKT_LEN - 3`, or the verdict's error. -/
def execPktChk (s : State) : Host.Outcome State Fault Refusal :=
  onLegal s
    (if pktVerdict s = .ok then s.respond .ok (lenByte (s.pktLen.toNat - 3)) else s.respondErr (pktVerdict s))

/-- PKT.RD i (R145): any verdict error before `RANGE_ERR` (R199). -/
def execPktRd (i : Nat) (s : State) : Host.Outcome State Fault Refusal :=
  onLegal s
    (if pktVerdict s ≠ .ok then s.respondErr (pktVerdict s)
     else if i ≥ s.pktLen.toNat - 3 then s.respondErr .rangeErr
     else s.respond .ok (s.pktBuf.read (pktReadIndex i)))

end Sys2Proof.Machine
end

