-- ==== Sys2Proof/Machine/Framer.lean ====
section
/-! DEFINITION. Unit 1, the framer (spec 41_framer.md): ENC.INIT, ENC.PUT, ENC.LEN, ENC.RD. -/

namespace Sys2Proof.Machine

/-- `enc_packet(i)` (R125), for `i <= ENC_LEN + 2`. -/
def encPacketByte (s : State) (i : Nat) : Byte :=
  if i = 0 then hw.header
  else if i = 1 then lenByte s.encLen.toNat
  else if i ≤ s.encLen.toNat + 1 then s.encBuf.read (encReadIndex i)
  else crc8 s.encPayload

/-- ENC.INIT (R121); the buffer is not cleared. -/
def execEncInit (s : State) : Host.Outcome State Fault Refusal :=
  onLegal s (s.clearEnc.respond .ok 0x00)

/-- ENC.PUT b (R122). -/
def execEncPut (b : Byte) (s : State) : Host.Outcome State Fault Refusal :=
  onLegal s (if s.EncHasRoom then (s.encAppend b).respond .ok 0x00 else s.setEncOvf.respondErr .lengthErr)

/-- ENC.LEN (R123): the packet's length, `ENC_LEN + 3`. -/
def execEncLen (s : State) : Host.Outcome State Fault Refusal :=
  onLegal s (if s.encOvf = true then s.respondErr .lengthErr else s.respond .ok (lenByte (s.encLen.toNat + 3)))

/-- ENC.RD i (R124): `LENGTH_ERR` before `RANGE_ERR` (R199). -/
def execEncRd (i : Nat) (s : State) : Host.Outcome State Fault Refusal :=
  onLegal s
    (if s.encOvf = true then s.respondErr .lengthErr
     else if i > s.encLen.toNat + 2 then s.respondErr .rangeErr
     else s.respond .ok (encPacketByte s i))

end Sys2Proof.Machine
end

