-- ==== Sys2Proof/Machine/Dispatch.lean ====
section
/-! DEFINITION. One arm per command of spec R74. -/

namespace Sys2Proof.Machine

def exec (i : Instr) (s : State) : Host.Outcome State Fault Refusal :=
  match i with
  | .crcInit => Sys2Proof.Machine.execCrcInit s
  | .crcUpd b => Sys2Proof.Machine.execCrcUpd b s
  | .crcRd => Sys2Proof.Machine.execCrcRd s
  | .encInit => Sys2Proof.Machine.execEncInit s
  | .encPut b => Sys2Proof.Machine.execEncPut b s
  | .encLen => Sys2Proof.Machine.execEncLen s
  | .encRd n => Sys2Proof.Machine.execEncRd n s
  | .pktInit => Sys2Proof.Machine.execPktInit s
  | .pktPut b => Sys2Proof.Machine.execPktPut b s
  | .pktChk => Sys2Proof.Machine.execPktChk s
  | .pktRd n => Sys2Proof.Machine.execPktRd n s
  | .decInit => Sys2Proof.Machine.execDecInit s
  | .decPush b => Sys2Proof.Machine.execDecPush b s
  | .decStat => Sys2Proof.Machine.execDecStat s
  | .decLen => Sys2Proof.Machine.execDecLen s
  | .decRd n => Sys2Proof.Machine.execDecRd n s

end Sys2Proof.Machine
end

