-- ==== Sys2Proof/Machine/Transact.lean ====
section
/-! DEFINITION. One transaction of the command port (spec R10, R11, R82): a command word taken, decoded and executed, the
reserved ones included; and sequences of them (R60, R224). -/

namespace Sys2Proof.Machine

/-- A reserved opcode (R75, R197): no state changes, `ILLEGAL_CMD`. -/
def execReserved (s : State) : Host.Outcome State Fault Refusal :=
  onLegal s (s.respondErr .illegalCmd)

/-- The transaction-level step of R82: the command word in, the next state with its response out. The opcode alone
decides `ILLEGAL_CMD`, before any state is looked at (R199). -/
def transact (w : CmdWord) (s : State) : Host.Outcome State Fault Refusal :=
  match decode w with
  | .ok i => exec i s
  | .error _ => execReserved s

/-- One step of the machine (R10): the host's next word is taken and its command executed. When no command is offered the
block holds its state (R215, R224; log 3). -/
def stepCommand (s : State) : Host.Outcome State Fault Refusal :=
  match s.cmdIn with
  | [] => .next s
  | w :: ws => transact w { s with cmdIn := ws }

/-- The host sends this word next (log 4). -/
def State.offer (s : State) (w : CmdWord) : State := { s with cmdIn := w :: s.cmdIn }

/-- A sequence of commands, in the order sent (R60), stopping at the first refusal. -/
def execAll : List Instr → State → Host.Outcome State Fault Refusal
  | [], s => .next s
  | i :: is, s =>
    match exec i s with
    | .next t => execAll is t
    | .fault r => .fault r
    | .refused r => .refused r

/-- A sequence of command words, in the order sent (R60, R224). -/
def transactAll : List CmdWord → State → Host.Outcome State Fault Refusal
  | [], s => .next s
  | w :: ws, s =>
    match transact w s with
    | .next t => transactAll ws t
    | .fault r => .fault r
    | .refused r => .refused r

end Sys2Proof.Machine
end

