-- ==== Sys2Proof/Machine/Step.lean ====
section
/-! DEFINITION. The step (spec R10, R11). -/

namespace Sys2Proof.Machine

/-- One step: the next command word of the host, decoded and executed. -/
def step (s : State) : Host.Outcome State Fault Refusal := stepCommand s

/-- The state in which the host's next command word is the table's `w`. A row has 16 bits, the whole word. -/
def State.withFetchWord (s : State) (nbits w : Nat) : State := s.offer (BitVec.ofNat 16 (w % 2 ^ nbits))

end Sys2Proof.Machine
end

