-- ==== Sys2Proof/Machine/Assembler.lean ====
section
/-! DEFINITION. The assembler notation (spec R78): one command per line, over a line's characters. Log 13 names the choices. -/

namespace Sys2Proof.Machine

/-- The mnemonics of R74, letter for letter. -/
def mnemonic : Instr → List Char
  | .crcInit => ['C', 'R', 'C', '.', 'I', 'N', 'I', 'T']
  | .crcUpd _ => ['C', 'R', 'C', '.', 'U', 'P', 'D']
  | .crcRd => ['C', 'R', 'C', '.', 'R', 'D']
  | .encInit => ['E', 'N', 'C', '.', 'I', 'N', 'I', 'T']
  | .encPut _ => ['E', 'N', 'C', '.', 'P', 'U', 'T']
  | .encLen => ['E', 'N', 'C', '.', 'L', 'E', 'N']
  | .encRd _ => ['E', 'N', 'C', '.', 'R', 'D']
  | .pktInit => ['P', 'K', 'T', '.', 'I', 'N', 'I', 'T']
  | .pktPut _ => ['P', 'K', 'T', '.', 'P', 'U', 'T']
  | .pktChk => ['P', 'K', 'T', '.', 'C', 'H', 'K']
  | .pktRd _ => ['P', 'K', 'T', '.', 'R', 'D']
  | .decInit => ['D', 'E', 'C', '.', 'I', 'N', 'I', 'T']
  | .decPush _ => ['D', 'E', 'C', '.', 'P', 'U', 'S', 'H']
  | .decStat => ['D', 'E', 'C', '.', 'S', 'T', 'A', 'T']
  | .decLen => ['D', 'E', 'C', '.', 'L', 'E', 'N']
  | .decRd _ => ['D', 'E', 'C', '.', 'R', 'D']

/-- Why a line does not assemble. -/
inductive AsmError where
  | unknownMnemonic | missingOperand | unexpectedOperand | badOperand | tooManyOperands
  deriving DecidableEq, Repr

/-- The value of a hexadecimal digit. -/
def hexDigit (c : Char) : Option Nat :=
  if '0' ≤ c ∧ c ≤ '9' then some (c.toNat - 48)
  else if 'A' ≤ c ∧ c ≤ 'F' then some (c.toNat - 55)
  else if 'a' ≤ c ∧ c ≤ 'f' then some (c.toNat - 87)
  else none

/-- A digit of the given base. -/
def digitOf (base : Nat) (c : Char) : Option Nat :=
  (hexDigit c).bind (fun d => if d < base then some d else none)

/-- A run of digits read most significant first, continuing from `acc`. -/
def digitsFrom (base : Nat) : Nat → List Char → Option Nat
  | acc, [] => some acc
  | acc, c :: cs => (digitOf base c).bind (fun d => digitsFrom base (acc * base + d) cs)

/-- An operand: hexadecimal after `0x`, or decimal, at least one digit, 0 to 255. -/
def asmOperand (cs : List Char) : Option Nat :=
  let v := match cs with
    | '0' :: 'x' :: c :: ds => digitsFrom 16 0 (c :: ds)
    | c :: ds => digitsFrom 10 0 (c :: ds)
    | [] => none
  v.bind (fun n => if n < 256 then some n else none)

/-- The line without its comment. -/
def stripComment : List Char → List Char
  | [] => []
  | c :: cs => if c = ';' then [] else c :: stripComment cs

/-- The words of a line, separated by blanks and tabs; `cur` is the word being read. -/
def asmWords : List Char → List Char → List (List Char)
  | cur, [] => if cur = [] then [] else [cur]
  | cur, c :: cs =>
    if c = ' ' ∨ c = '\t' then (if cur = [] then asmWords [] cs else cur :: asmWords [] cs)
    else asmWords (cur ++ [c]) cs

/-- The sixteen commands, each with operand value `n` where it takes one. -/
def commandsWith (n : Nat) : List Instr :=
  [.crcInit, .crcUpd (indexByte n), .crcRd, .encInit, .encPut (indexByte n), .encLen, .encRd n, .pktInit,
   .pktPut (indexByte n), .pktChk, .pktRd n, .decInit, .decPush (indexByte n), .decStat, .decLen, .decRd n]

/-- The command that a mnemonic names. -/
def findCommand (name : List Char) (n : Nat) : Option Instr :=
  (commandsWith n).find? (fun i => mnemonic i == name)

/-- One line: `none` for a blank line or a comment, else its command (R78). -/
def assembleLine (line : List Char) : Except AsmError (Option Instr) :=
  match asmWords [] (stripComment line) with
  | [] => .ok none
  | [m] =>
    match findCommand m 0 with
    | none => .error .unknownMnemonic
    | some i => if i.operandUse = .ignored then .ok (some i) else .error .missingOperand
  | [m, o] =>
    match findCommand m 0, asmOperand o with
    | none, _ => .error .unknownMnemonic
    | some i, none => if i.operandUse = .ignored then .error .unexpectedOperand else .error .badOperand
    | some i, some n =>
      if i.operandUse = .ignored then .error .unexpectedOperand else .ok (findCommand m n)
  | _ => .error .tooManyOperands

/-- A text's lines, cut at line feeds; `cur` is the line being read. -/
def asmLines : List Char → List Char → List (List Char)
  | cur, [] => [cur]
  | cur, c :: cs => if c = '\n' then cur :: asmLines [] cs else asmLines (cur ++ [c]) cs

/-- Lines to command words, in order; the first bad line stops it. -/
def assembleLines : List (List Char) → Except AsmError (List CmdWord)
  | [] => .ok []
  | l :: ls =>
    match assembleLine l, assembleLines ls with
    | .error e, _ => .error e
    | .ok _, .error e => .error e
    | .ok none, .ok ws => .ok ws
    | .ok (some i), .ok ws => .ok (encode i :: ws)

/-- A whole text (R78). -/
def assemble (text : List Char) : Except AsmError (List CmdWord) := assembleLines (asmLines [] text)

/-- An upper-case hexadecimal digit. -/
def hexChar (d : Nat) : Char := if d < 10 then Char.ofNat (48 + d) else Char.ofNat (55 + d)

/-- A byte written `0x..`. -/
def hexText (n : Nat) : List Char := ['0', 'x', hexChar (n / 16), hexChar (n % 16)]

/-- A command written as R78 writes it. -/
def disassemble (i : Instr) : List Char :=
  match i with
  | .crcUpd b | .encPut b | .pktPut b | .decPush b => mnemonic i ++ ' ' :: hexText b.toNat
  | .encRd n | .pktRd n | .decRd n => mnemonic i ++ ' ' :: hexText n
  | .crcInit | .crcRd | .encInit | .encLen | .pktInit | .pktChk | .decInit | .decStat | .decLen => mnemonic i

end Sys2Proof.Machine
end

