-- ==== Sys2Proof/Machine/Pseudo.lean ====
section
/-! DEFINITION. The pseudo-instructions (spec R79). -/

namespace Sys2Proof.Machine

/-- The five pseudo-instructions; `bs` is the list of bytes, possibly empty. -/
inductive Pseudo where
  | crc8 (bs : List Byte)
  | encode (bs : List Byte)
  | decode (bs : List Byte)
  | feed (bs : List Byte)
  | newdec
  deriving DecidableEq, Repr

/-- The part of the expansion that depends on no response. -/
def Pseudo.expand : Pseudo → List Instr
  | .crc8 bs => .crcInit :: bs.map .crcUpd ++ [.crcRd]
  | .encode bs => .encInit :: bs.map .encPut ++ [.encLen]
  | .decode bs => .pktInit :: bs.map .pktPut ++ [.pktChk]
  | .feed bs => bs.map .decPush
  | .newdec => [.decInit]

/-- The `status` field of a response word (R72). -/
def rspStatus (r : RspWord) : BitVec 4 := r.extractLsb' 8 4

/-- The `data` field of a response word (R72). -/
def rspData (r : RspWord) : Byte := r.extractLsb' 0 8

/-- The reads that follow, given the response to the expansion's last command: `OK` with `data` = L gives L reads. -/
def Pseudo.readBack (p : Pseudo) (r : RspWord) : List Instr :=
  match p with
  | .encode _ => if rspStatus r = statusCode .ok then (List.range (rspData r).toNat).map .encRd else []
  | .decode _ => if rspStatus r = statusCode .ok then (List.range (rspData r).toNat).map .pktRd else []
  | .crc8 _ | .feed _ | .newdec => []

end Sys2Proof.Machine
end

