-- ==== Sys2Proof/Machine/Ports.lean ====
section
/-! DEFINITION. The pins and the port protocol (spec R80, R81), reset by `rst` (R220, R221) and latency (R232), around the
transaction function of R82, to which they "add nothing". -/

namespace Sys2Proof.Machine

/-- The block's inputs as sampled at a rising edge of `clk` (R80). -/
structure PinsIn where
  rst      : Bool
  cmdValid : Bool
  cmd      : CmdWord
  rspReady : Bool
  deriving DecidableEq, Repr

/-- The block's outputs as sampled at the same edge (R80). -/
structure PinsOut where
  cmdReady : Bool
  rspValid : Bool
  rsp      : RspWord
  deriving DecidableEq, Repr

/-- Where the port protocol stands. -/
inductive Phase where
  /-- After power-up, before the first reset: state and outputs unspecified (R221). -/
  | beforeReset
  /-- No command outstanding; `cmd_ready` rises after `n` more edges, and at `0` it is 1 and stays 1 until a command is
  accepted or `rst` (DESIGN CHOICE, log 16). -/
  | accepting (n : Nat)
  /-- A command outstanding whose response is `rsp`; `rsp_valid` rises after `n` more edges (R81 d, R232), and at `0`
  it is 1 and stays 1 until the response is delivered or `rst` (DEDUCED, log 16). -/
  | answering (rsp : RspWord) (n : Nat)
  deriving DecidableEq, Repr

/-- The block with its ports. `core.rspOut` holds the responses DELIVERED; `draws` counts the free edge counts drawn (log 10). -/
structure PortState where
  core  : State
  phase : Phase
  draws : Nat
  deriving DecidableEq, Repr

/-- The outputs at an edge; while `rst` is 1 both handshake outputs are 0 (R221). -/
def PortState.outputs (p : PortState) (rst : Bool) : PinsOut :=
  match p.phase with
  | .beforeReset =>
    ⟨!rst && Config.powerUpWire 0, !rst && Config.powerUpWire 1, Config.undrivenRsp p.draws⟩
  | .accepting n => ⟨!rst && n == 0, false, Config.undrivenRsp p.draws⟩
  | .answering r n => ⟨false, !rst && n == 0, if n = 0 then r else Config.undrivenRsp p.draws⟩

/-- The word accepted at an edge: `rst` = 0, `cmd_valid` = 1 and `cmd_ready` = 1 (R80). -/
def PortState.accepts (p : PortState) (i : PinsIn) : Option CmdWord :=
  if !i.rst && i.cmdValid && (p.outputs i.rst).cmdReady then some i.cmd else none

/-- The word delivered at an edge: `rst` = 0, `rsp_valid` = 1 and `rsp_ready` = 1 (R80). -/
def PortState.delivers (p : PortState) (i : PinsIn) : Option RspWord :=
  if !i.rst && i.rspReady && (p.outputs i.rst).rspValid then some (p.outputs i.rst).rsp else none

/-- Reset at an edge (R220, R221): an outstanding command is dropped without a response; `cmd_ready` rises after a free
number of edges once `rst` is 0. -/
def PortState.onReset (p : PortState) : PortState :=
  { core := p.core.resetBlock, phase := .accepting (Config.edges p.draws), draws := p.draws + 1 }

/-- A command accepted (R81): its whole state change is placed here (R81 c), its response waits for delivery. -/
def PortState.onAccept (p : PortState) (w : CmdWord) : Host.Outcome PortState Fault Refusal :=
  match transact w { p.core with rspOut := [] } with
  | .next t =>
    .next { core := { t with rspOut := p.core.rspOut }
            phase := .answering (t.rspOut.headD 0) (Config.edges p.draws), draws := p.draws + 1 }
  | .fault r => .fault r
  | .refused r => .refused r

/-- A response delivered. -/
def PortState.onDeliver (p : PortState) (r : RspWord) : PortState :=
  { core := { p.core with rspOut := p.core.rspOut ++ [r] }
    phase := .accepting (Config.edges p.draws), draws := p.draws + 1 }

/-- One rising edge of `clk` (R80, R81, R220, R221). At `.accepting 0` with no word offered the phase is kept: that `cmd_ready`,
once raised after reset or after a delivery, does not fall before a command is accepted is the model's choice, on which
R80, R81 and R221 are silent (log 16). That `rsp_valid` does not fall before delivery is DEDUCED (log 16). -/
def PortState.clock (p : PortState) (i : PinsIn) : Host.Outcome PortState Fault Refusal :=
  if i.rst then .next p.onReset
  else
    match p.phase with
    | .beforeReset => .refused .beforeFirstReset
    | .accepting 0 => if i.cmdValid then p.onAccept i.cmd else .next p
    | .accepting (n + 1) => .next { p with phase := .accepting n }
    | .answering r 0 => if i.rspReady then .next (p.onDeliver r) else .next p
    | .answering r (n + 1) => .next { p with phase := .answering r n }

/-- What a run of edges shows: the words accepted and delivered, in order, and the state left. -/
structure PortTrace where
  accepted  : List CmdWord
  delivered : List RspWord
  last      : PortState
  deriving DecidableEq, Repr

/-- A run of edges. -/
def PortState.run (p : PortState) : List PinsIn → Host.Outcome PortTrace Fault Refusal
  | [] => .next ⟨[], [], p⟩
  | i :: is =>
    match p.clock i with
    | .next q =>
      match PortState.run q is with
      | .next tr => .next ⟨(p.accepts i).toList ++ tr.accepted, (p.delivers i).toList ++ tr.delivered, tr.last⟩
      | .fault r => .fault r
      | .refused r => .refused r
    | .fault r => .fault r
    | .refused r => .refused r

end Sys2Proof.Machine
end

