-- ==== Sys2Proof/Safety.lean ====
section
/-! DEFINITION. The terms claims are stated in: the frame of a unit, what a command answered, the invariant, the states a run
reaches, what a run can tell apart, and the host's discipline. -/

namespace Sys2Proof.Machine

/-! ### What a command left alone, and what it answered -/

/-- Unit CRC's one item is unchanged (R21). -/
def SameCrc (s t : State) : Prop := t.crcAcc = s.crcAcc

/-- Unit ENC's three items are unchanged (R21): every byte of `ENC_BUF` reads as before. -/
def SameEnc (s t : State) : Prop := t.encBuf = s.encBuf ∧ t.encLen = s.encLen ∧ t.encOvf = s.encOvf

/-- Unit PKT's three items are unchanged (R21): every byte of `PKT_BUF` reads as before. -/
def SamePkt (s t : State) : Prop := t.pktBuf = s.pktBuf ∧ t.pktLen = s.pktLen ∧ t.pktOvf = s.pktOvf

/-- Unit DEC's four items are unchanged (R21): every byte of `DEC_BUF` reads as before. -/
def SameDec (s t : State) : Prop :=
  t.decBuf = s.decBuf ∧ t.decState = s.decState ∧ t.decExpLen = s.decExpLen ∧ t.decCnt = s.decCnt

/-- The items of one unit are unchanged. -/
def SameUnit : UnitName → State → State → Prop
  | .crc => SameCrc
  | .enc => SameEnc
  | .pkt => SamePkt
  | .dec => SameDec

/-- From `s` to `t` the block gave exactly one response word, with this status and data (R72), and took nothing more from the host. -/
def Answers (s t : State) (st : Status) (d : Byte) : Prop :=
  t.rspOut = s.rspOut ++ [rspWord st d] ∧ t.cmdIn = s.cmdIn

/-- Executing `i` in `s` completes, answers this status and data, and changes nothing of the block. -/
def OnlyAnswers (i : Instr) (s : State) (st : Status) (d : Byte) : Prop :=
  exec i s = .next { s with rspOut := s.rspOut ++ [rspWord st d] }

/-! ### The opcodes of R74 -/

/-- The opcode column of R74; the 240 others are reserved (R75). -/
def commandOpcodes : List Byte :=
  [0x00, 0x01, 0x02, 0x10, 0x11, 0x12, 0x13, 0x20, 0x21, 0x22, 0x23, 0x30, 0x31, 0x32, 0x33, 0x34]

/-- Every word with this opcode decodes to this command, its operand as given (R70, R71, R74). -/
def Selects (opcode : Byte) (i : Byte → Instr) : Prop := ∀ x : Byte, decode (opcode ++ x) = .ok (i x)

/-! ### The tables of R57, R72 and R198 -/

/-- The eight commands that change no state (R57). -/
def isRead : Instr → Bool
  | .crcRd | .encLen | .encRd _ | .pktChk | .pktRd _ | .decStat | .decLen | .decRd _ => true
  | .crcInit | .crcUpd _ | .encInit | .encPut _ | .pktInit | .pktPut _ | .decInit | .decPush _ => false

/-- The commands that return a result in `data` (R74); the others answer 0x00. -/
def hasResult : Instr → Bool
  | .crcUpd _ | .crcRd | .encLen | .encRd _ | .pktChk | .pktRd _ | .decPush _ | .decStat | .decLen | .decRd _ => true
  | .crcInit | .encInit | .encPut _ | .pktInit | .pktPut _ | .decInit => false

/-- The table of R198: the statuses a command can answer. -/
def canAnswer : Instr → List Status
  | .crcInit | .crcUpd _ | .crcRd | .encInit | .pktInit | .pktPut _ | .decInit | .decStat | .decLen => [.ok]
  | .encPut _ | .encLen => [.ok, .lengthErr]
  | .encRd _ => [.ok, .lengthErr, .rangeErr]
  | .pktChk => [.ok, .lengthErr, .headerErr, .lengthFieldErr, .crcErr]
  | .pktRd _ => [.ok, .lengthErr, .headerErr, .lengthFieldErr, .crcErr, .rangeErr]
  | .decPush _ => [.ok, .headerErr, .lengthFieldErr, .crcErr, .stateErr]
  | .decRd _ => [.ok, .rangeErr, .stateErr]

/-! ### The bytes a sequence of commands carries -/

/-- The byte of a CRC.UPD. -/
def crcUpdByte : Instr → Option Byte
  | .crcUpd b => some b
  | _ => none

/-- The byte of an ENC.PUT. -/
def encPutByte : Instr → Option Byte
  | .encPut b => some b
  | _ => none

/-- The byte of a PKT.PUT. -/
def pktPutByte : Instr → Option Byte
  | .pktPut b => some b
  | _ => none

/-- The byte of a DEC.PUSH. -/
def decPushByte : Instr → Option Byte
  | .decPush b => some b
  | _ => none

/-! ### The invariant -/

/-- The three buffers are in canonical form and list no index outside themselves (R50). -/
def Canonical (s : State) : Prop :=
  s.encBuf.wf = true ∧ s.encBuf.within encCap = true ∧
  s.pktBuf.wf = true ∧ s.pktBuf.within pktCap = true ∧
  s.decBuf.wf = true ∧ s.decBuf.within encCap = true

/-- R35's invariants, and the model's own on how buffers are held. -/
def BlockInv (s : State) : Prop := s.Legal ∧ Canonical s

/-- A state a run reaches: from reset, whatever words the host sends and whatever the buffers held (R222), by steps. -/
inductive Reachable : State → Prop
  | reset (ws : List CmdWord) (e p d : Memory) :
      Reachable { State.reset with cmdIn := ws, encBuf := e, pktBuf := p, decBuf := d }
  | step {s t : State} : Reachable s → Machine.step s = .next t → Reachable t

/-! ### What a run can tell apart -/

/-- Two states that differ at most in buffer bytes at or above the length counters (R33, R224). -/
structure ObsEq (s t : State) : Prop where
  crcAcc : s.crcAcc = t.crcAcc
  encLen : s.encLen = t.encLen
  encOvf : s.encOvf = t.encOvf
  encBuf : ∀ a, a < s.encLen.toNat → s.encBuf.read a = t.encBuf.read a
  pktLen : s.pktLen = t.pktLen
  pktOvf : s.pktOvf = t.pktOvf
  pktBuf : ∀ a, a < s.pktLen.toNat → s.pktBuf.read a = t.pktBuf.read a
  decState : s.decState = t.decState
  decExpLen : s.decExpLen = t.decExpLen
  decCnt : s.decCnt = t.decCnt
  decBuf : ∀ a, a < s.decCnt.toNat → s.decBuf.read a = t.decBuf.read a
  cmdIn : s.cmdIn = t.cmdIn
  rspOut : s.rspOut = t.rspOut

/-! ### The host's discipline with the stream decoder (R226, R227, R228) -/

/-- Whether the host owes a DEC.INIT before its next DEC.PUSH, after `i` took the block from `s` to `t`: after Ready
(R226, R228), after LENGTHFIELD_ERR and after CRC_ERR (R227); not after HEADER_ERR. -/
def owesInit (owed : Bool) (i : Instr) (s t : State) : Bool :=
  match i with
  | .decInit => false
  | .decPush _ =>
    owed || t.decState == .ready || t.rspOut == s.rspOut ++ [rspWord .lengthFieldErr 0x00]
      || t.rspOut == s.rspOut ++ [rspWord .crcErr 0x00]
  | _ => owed

/-- A command sequence that keeps R226, R227 and R228 from `s` on. -/
def Disciplined : Bool → List Instr → State → Prop
  | _, [], _ => True
  | owed, i :: is, s =>
    ((decPushByte i).isSome = true → owed = false) ∧
    ∀ t, exec i s = .next t → Disciplined (owesInit owed i s t) is t

/-- The decoder state after the first `j` bytes of the packet of an `n`-byte payload (R171). -/
def streamState (n j : Nat) : DecState :=
  if j = 0 then .awaitingHeader
  else if j = 1 then .awaitingLength
  else if j < n + 2 then .awaitingData
  else if j = n + 2 then .awaitingCrc
  else .ready

end Sys2Proof.Machine
end

