-- ==== Sys2Proof/Certificates/Slice0/Obligations.lean ====
section
/-! DEFINITION. The statements for the provers. `s.Legal` is R35's invariant, itself stated in
`EveryReachableStateMeetsTheInvariants` and `StepKeepsTheInvariant`; outside it every command is refused
(`UnreachablePatternsAreRefused`). -/

open Sys2Proof Sys2Proof.Machine

/-! ### Reset, reachable states, the step -/

/-- R36, R220: the registers after reset. (Buffer contents are unspecified and not claimed; the two ends of the command
port, empty at reset, are the model's choice, logs 1 and 2.) -/
def Obligations.ResetRegisterValues : Prop :=
  State.reset.crcAcc = 0x00 ∧ State.reset.encLen = 0 ∧ State.reset.encOvf = false ∧
  State.reset.pktLen = 0 ∧ State.reset.pktOvf = false ∧
  State.reset.decState = .awaitingHeader ∧ decStateCode State.reset.decState = 0 ∧
  State.reset.decExpLen = 0 ∧ State.reset.decCnt = 0

/-- The invariant holds at reset. -/
def Obligations.ResetMeetsTheInvariant : Prop := BlockInv State.reset

/-- Every step keeps the invariant: R35's relations between the registers, and the buffers' canonical form within 32, 258
and 32 bytes. -/
def Obligations.StepKeepsTheInvariant : Prop :=
  ∀ s t : State, BlockInv s → step s = .next t → BlockInv t

/-- R35, its list written out, for every state that any command sequence reaches from reset. -/
def Obligations.EveryReachableStateMeetsTheInvariants : Prop :=
  ∀ s : State, Reachable s →
    s.encLen.toNat ≤ 32 ∧ (s.encOvf = true → s.encLen.toNat = 32) ∧
    s.pktLen.toNat ≤ 258 ∧ (s.pktOvf = true → s.pktLen.toNat = 258) ∧
    (decStateCode s.decState).toNat ≤ 4 ∧
    s.decExpLen.toNat ≤ 32 ∧ s.decCnt.toNat ≤ s.decExpLen.toNat ∧
    (s.decState = .awaitingHeader ∨ s.decState = .awaitingLength → s.decCnt = 0 ∧ s.decExpLen = 0) ∧
    (s.decState = .awaitingData → s.decCnt.toNat < s.decExpLen.toNat) ∧
    (s.decState = .awaitingCrc ∨ s.decState = .ready → s.decCnt = s.decExpLen)

/-- R11, R224: from every reachable state every step and every one of the 65,536 command words has a next state, which is
reachable-legal again, and exactly one response word; the block never stops. -/
def Obligations.NoCommandWordEverStopsTheBlock : Prop :=
  ∀ s : State, Reachable s →
    (∃ t, step s = .next t) ∧
    ∀ w : CmdWord, ∃ t, transact w s = .next t ∧ t.Legal ∧ ∃ r, t.rspOut = s.rspOut ++ [r]

/-- R35: for a bit pattern no run reaches the spec gives no behaviour; every command, the reserved ones too, is refused there. -/
def Obligations.UnreachablePatternsAreRefused : Prop :=
  ∀ s : State, ¬ s.Legal →
    (∀ i : Instr, exec i s = .refused .unreachableState) ∧
    ∀ w : CmdWord, transact w s = .refused .unreachableState

/-- A step takes the host's next word and runs the command it decodes to, or answers a reserved word; with no word offered
the block holds its state (R10, R215; log 3). -/
def Obligations.StepRunsTheDecodedCommand : Prop :=
  ∀ s : State,
    (s.cmdIn = [] → step s = .next s) ∧
    ∀ w ws, s.cmdIn = w :: ws →
      (∀ i, decode w = .ok i → step s = exec i { s with cmdIn := ws }) ∧
      (∀ e, decode w = .error e → step s = execReserved { s with cmdIn := ws })

/-- R60: the machine run on the words the host sends is those words' transactions one after another, in the order sent. -/
def Obligations.StepsTakeTheHostsWordsInOrder : Prop :=
  ∀ (s t : State) (ws rest : List CmdWord), transactAll ws { s with cmdIn := rest } = .next t →
    Host.Core.run Sys2Proof.core ws.length { s with cmdIn := ws ++ rest } = .next t

/-! ### Encodings -/

/-- R71 (with R74's opcodes): a data byte is the operand as it stands, an index is its unsigned value, and all 256 operand
values of a command that ignores its operand select that command; the encoder emits 0x00 there. -/
def Obligations.OperandsAreAssembledAsTheTableSays : Prop :=
  (∀ x : Byte,
    decode (0x00#8 ++ x) = .ok .crcInit ∧ decode (0x01#8 ++ x) = .ok (.crcUpd x) ∧ decode (0x02#8 ++ x) = .ok .crcRd ∧
    decode (0x10#8 ++ x) = .ok .encInit ∧ decode (0x11#8 ++ x) = .ok (.encPut x) ∧ decode (0x12#8 ++ x) = .ok .encLen ∧
    decode (0x13#8 ++ x) = .ok (.encRd x.toNat) ∧
    decode (0x20#8 ++ x) = .ok .pktInit ∧ decode (0x21#8 ++ x) = .ok (.pktPut x) ∧ decode (0x22#8 ++ x) = .ok .pktChk ∧
    decode (0x23#8 ++ x) = .ok (.pktRd x.toNat) ∧
    decode (0x30#8 ++ x) = .ok .decInit ∧ decode (0x31#8 ++ x) = .ok (.decPush x) ∧ decode (0x32#8 ++ x) = .ok .decStat ∧
    decode (0x33#8 ++ x) = .ok .decLen ∧ decode (0x34#8 ++ x) = .ok (.decRd x.toNat)) ∧
  ∀ i : Instr, i.operandUse = .ignored → operandByte (encode i) = 0x00

/-- R75, R197, R199: a word whose opcode is not one of R74's sixteen is reserved; in every legal state it changes nothing and
answers ILLEGAL_CMD with data 0x00. The sixteen are commands. -/
def Obligations.ReservedOpcodesAnswerIllegalCmd : Prop :=
  ∀ w : CmdWord,
    (cmdOpcode w ∈ commandOpcodes → ∃ i, decode w = .ok i) ∧
    (cmdOpcode w ∉ commandOpcodes → (∃ e, decode w = .error e) ∧
        ∀ s : State, s.Legal → transact w s = .next { s with rspOut := s.rspOut ++ [0x0700] })

/-- Every well-formed command, with every operand, decodes back from its word. -/
def Obligations.DecodeOfEncodeIsTheCommand : Prop :=
  ∀ i : Instr, i.wf = true → decode (encode i) = .ok i

/-- The other direction: a word that decodes gives a well-formed command with the same opcode, and, where the operand is used,
whose encoding is that very word. -/
def Obligations.EncodeOfDecodeIsTheWord : Prop :=
  ∀ (w : CmdWord) (i : Instr), decode w = .ok i →
    i.wf = true ∧ cmdOpcode (encode i) = cmdOpcode w ∧ (i.operandUse ≠ .ignored → encode i = w)

/-- Words written out from R74 and R78's example decode to their commands. -/
def Obligations.WrittenOutWordsDecode : Prop :=
  decode 0x0131 = .ok (.crcUpd 0x31) ∧ decode 0x1304 = .ok (.encRd 4) ∧ decode 0x21D5 = .ok (.pktPut 0xD5) ∧
  decode 0x3000 = .ok .decInit ∧ decode 0x34FF = .ok (.decRd 255)

/-- R78: every well-formed command written in the notation assembles to itself, and the spec's two examples. (Spacing and the
letter case of digits are the model's choice, log 13.) -/
def Obligations.AssemblerReadsWhatItWrites : Prop :=
  (∀ i : Instr, i.wf = true → assembleLine (disassemble i) = .ok (some i)) ∧
  assemble "CRC.UPD 0x31".toList = .ok [0x0131] ∧ assemble "DEC.INIT".toList = .ok [0x3000]

/-! ### Responses and errors -/

/-- R72: every command word gives one response word of the stated fields: bits 15 to 12 zero, a status code of R73, and data
that is 0x00 on every error and on every success without a result. -/
def Obligations.EveryResponseWordHasItsFields : Prop :=
  ∀ (w : CmdWord) (s : State), s.Legal → ∃ (t : State) (r : RspWord) (st : Status),
    transact w s = .next t ∧ t.rspOut = s.rspOut ++ [r] ∧
    r.extractLsb' 12 4 = 0 ∧ r.extractLsb' 8 4 = statusCode st ∧
    (st ≠ .ok → r.extractLsb' 0 8 = 0x00) ∧
    (∀ i, decode w = .ok i → hasResult i = false → r.extractLsb' 0 8 = 0x00)

/-- R73: the code numbers. -/
def Obligations.StatusCodesAreTheTable : Prop :=
  statusCode .ok = 0x0 ∧ statusCode .lengthErr = 0x1 ∧ statusCode .headerErr = 0x2 ∧ statusCode .lengthFieldErr = 0x3 ∧
  statusCode .crcErr = 0x4 ∧ statusCode .rangeErr = 0x5 ∧ statusCode .stateErr = 0x6 ∧ statusCode .illegalCmd = 0x7

/-- R198: which command can answer which status. A command never answers a status outside its row; every cell of its row is
answered by some operand in some legal state; a reserved word always answers ILLEGAL_CMD. -/
def Obligations.WhichCommandAnswersWhichStatus : Prop :=
  (∀ (i : Instr) (s t : State), exec i s = .next t → ∃ st ∈ canAnswer i, ∃ d, Answers s t st d) ∧
  (∀ (i : Instr) (st : Status), st ∈ canAnswer i → ∃ (j : Instr) (s t : State) (d : Byte),
    cmdOpcode (encode j) = cmdOpcode (encode i) ∧ s.Legal ∧ exec j s = .next t ∧ Answers s t st d) ∧
  (∀ (w : CmdWord) (s t : State), (∃ e, decode w = .error e) → transact w s = .next t → Answers s t .illegalCmd 0x00)

/-- R190, R201: an error answers data 0x00 and changes nothing of the block but `ENC_OVF`, and that only from an ENC.PUT. -/
def Obligations.ErrorsChangeNothingButEncOvf : Prop :=
  ∀ (i : Instr) (s t : State) (st : Status) (d : Byte), exec i s = .next t → Answers s t st d → st ≠ .ok →
    d = 0x00 ∧ SameCrc s t ∧ SamePkt s t ∧ SameDec s t ∧ t.encBuf = s.encBuf ∧ t.encLen = s.encLen ∧
    (t.encOvf = s.encOvf ∨ (∃ b, i = .encPut b) ∧ st = .lengthErr ∧ t.encOvf = true)

/-- R21: a command writes its own unit's items only, and what it answers and leaves in them depends on them only. -/
def Obligations.UnitsShareNoState : Prop :=
  (∀ (i : Instr) (s t : State), exec i s = .next t → ∀ u, u ≠ i.unit → SameUnit u s t) ∧
  (∀ (i : Instr) (s s' t t' : State), SameUnit i.unit s s' → s.Legal → s'.Legal →
    exec i s = .next t → exec i s' = .next t' →
    SameUnit i.unit t t' ∧ ∃ st d, Answers s t st d ∧ Answers s' t' st d)

/-- R57: the eight read commands change no state and answer the same again; the four INIT commands are idempotent. -/
def Obligations.ReadsChangeNothingAndInitsAreIdempotent : Prop :=
  (∀ (i : Instr) (s t : State), isRead i = true → exec i s = .next t →
    ∃ st d, Answers s t st d ∧ t = { s with rspOut := t.rspOut } ∧
      exec i t = .next { t with rspOut := t.rspOut ++ [rspWord st d] }) ∧
  (∀ (i : Instr) (s t u : State), i ∈ [Instr.crcInit, .encInit, .pktInit, .decInit] →
    exec i s = .next t → exec i t = .next u → u = { t with rspOut := u.rspOut })

/-- R24: who sets and who clears the two sticky flags, in every command, and what `ENC_OVF` makes of ENC.LEN and ENC.RD. -/
def Obligations.OverflowFlagsAreSticky : Prop :=
  ∀ (i : Instr) (s t : State), exec i s = .next t →
    (s.encOvf = true → i ≠ .encInit → t.encOvf = true) ∧
    (s.encOvf = false → t.encOvf = true → (∃ b, i = .encPut b) ∧ s.encLen.toNat = 32) ∧
    (s.pktOvf = true → i ≠ .pktInit → t.pktOvf = true) ∧
    (s.pktOvf = false → t.pktOvf = true → (∃ b, i = .pktPut b) ∧ s.pktLen.toNat = 258) ∧
    (i = .encInit → t.encOvf = false) ∧ (i = .pktInit → t.pktOvf = false) ∧
    (s.encOvf = true → i = .encLen ∨ (∃ n, i = .encRd n) → Answers s t .lengthErr 0x00)

/-- R33, R224: no command sequence tells apart two states that differ only in buffer bytes at or above the length counters:
it gives the same responses from both. So no claim about responses rests on what an unwritten byte holds (log 5). -/
def Obligations.StaleBufferBytesAreNeverObserved : Prop :=
  ∀ (ws : List CmdWord) (s s' t : State), s.Legal → ObsEq s s' → transactAll ws s = .next t →
    ∃ t', transactAll ws s' = .next t' ∧ ObsEq t t'

/-- R220, R36: the state after reset equals the state after the four INITs issued from any state, as far as any command can
tell; `s.resetBlock` is reset by `rst` from `s`. -/
def Obligations.ResetEqualsTheFourInits : Prop :=
  ∀ s : State, s.Legal →
    (∃ t, execAll [.crcInit, .encInit, .pktInit, .decInit] s = .next t ∧
      t.rspOut = s.rspOut ++ [0x0000, 0x0000, 0x0000, 0x0000] ∧ ObsEq { t with rspOut := s.rspOut } s.resetBlock) ∧
    ObsEq { State.reset with cmdIn := s.cmdIn, rspOut := s.rspOut } s.resetBlock

/-- R228 (with R226 and R227): a host that issues DEC.INIT after Ready and after LENGTHFIELD_ERR and CRC_ERR never has a
DEC.PUSH answered STATE_ERR, so no byte of its stream is refused. -/
def Obligations.DisciplinedHostsLoseNoByte : Prop :=
  ∀ (s : State) (cs pre post : List Instr) (b : Byte) (u v : State), s.decState ≠ .ready → Disciplined false cs s →
    cs = pre ++ .decPush b :: post → execAll pre s = .next u → exec (.decPush b) u = .next v →
    ¬ Answers u v .stateErr 0x00

/-! ### The CRC unit -/

/-- R104. -/
def Obligations.CrcInitSeedsTheAccumulator : Prop :=
  Selects 0x00 (fun _ => .crcInit) ∧
  ∀ s : State, s.Legal → exec .crcInit s = .next { s with crcAcc := 0x00, rspOut := s.rspOut ++ [0x0000] }

/-- R105: the new accumulator is the table entry at accumulator xor byte, and the response carries it. -/
def Obligations.CrcUpdFoldsOneByte : Prop :=
  Selects 0x01 .crcUpd ∧
  ∀ (s : State) (b : Byte), s.Legal →
    exec (.crcUpd b) s =
      .next { s with crcAcc := T (s.crcAcc ^^^ b), rspOut := s.rspOut ++ [rspWord .ok (T (s.crcAcc ^^^ b))] }

/-- R106. -/
def Obligations.CrcRdReadsTheAccumulator : Prop :=
  Selects 0x02 (fun _ => .crcRd) ∧
  ∀ s : State, s.Legal → OnlyAnswers .crcRd s .ok s.crcAcc

/-- R102: each of the 256 listed values is what the procedure gives. -/
def Obligations.CrcTableIsWhatItsRuleGenerates : Prop :=
  ∀ i : Byte, T i = tableByRule i

/-- R108: `T` maps 0 to 0, is a permutation, is linear; and the consequences (d) and (e). -/
def Obligations.CrcTableIsALinearPermutation : Prop :=
  T 0x00 = 0x00 ∧ Function.Bijective T ∧ (∀ x y : Byte, T (x ^^^ y) = T x ^^^ T y) ∧
  (∀ a, Function.Bijective fun b => T (a ^^^ b)) ∧ (∀ b, Function.Bijective fun a => T (a ^^^ b)) ∧
  (∀ a, T (a ^^^ a) = 0x00) ∧ (∀ s : List Byte, crc8 (s ++ [crc8 s]) = 0x00)

/-- R109: a change confined to one byte is detected; in particular a change of one bit. Prepended zero bytes are not. -/
def Obligations.CrcDetectsEverySingleByteChange : Prop :=
  (∀ (u v : List Byte) (x y : Byte), x ≠ y → crc8 (u ++ x :: v) ≠ crc8 (u ++ y :: v)) ∧
  (∀ s : List Byte, crc8 (0x00 :: s) = crc8 s)

/-- R107: whatever commands of other units are interleaved, the updates since the last CRC.INIT leave `crc8` of their bytes in
the accumulator; from any accumulator they leave the fold started there. -/
def Obligations.CrcCommandsComputeCrc8 : Prop :=
  ∀ (s : State) (cs : List Instr), s.Legal → .crcInit ∉ cs →
    (∃ t, execAll (.crcInit :: cs) s = .next t ∧ t.crcAcc = crc8 (cs.filterMap crcUpdByte)) ∧
    (∃ t, execAll cs s = .next t ∧ t.crcAcc = crcFold s.crcAcc (cs.filterMap crcUpdByte)) ∧
    (s.crcAcc = State.reset.crcAcc → ∃ t, execAll cs s = .next t ∧ t.crcAcc = crc8 (cs.filterMap crcUpdByte))

/-- R103, R110: the empty input and the two check values. -/
def Obligations.Crc8CheckValues : Prop :=
  crc8 [] = 0x00 ∧ crc8 [0x31, 0x32, 0x33, 0x34, 0x35, 0x36, 0x37, 0x38, 0x39] = 0xA1 ∧
  crc8 [0x02, 0x1C, 0xB8, 0x01, 0x00, 0x00, 0x00] = 0xA2

/-! ### The framer -/

/-- R121. -/
def Obligations.EncInitStartsAPayload : Prop :=
  Selects 0x10 (fun _ => .encInit) ∧
  ∀ s : State, s.Legal →
    exec .encInit s = .next { s with encLen := 0, encOvf := false, rspOut := s.rspOut ++ [0x0000] }

/-- R122: a byte is appended while there is room; from the 33rd on it is dropped, `ENC_OVF` is set and the answer is
LENGTH_ERR. Every other byte and register is as before. -/
def Obligations.EncPutAppendsOrOverflows : Prop :=
  Selects 0x11 .encPut ∧
  ∀ (s : State) (b : Byte), s.Legal →
    (s.encOvf = false → s.encLen.toNat < 32 → ∃ t, exec (.encPut b) s = .next t ∧
      Answers s t .ok 0x00 ∧ t.encLen.toNat = s.encLen.toNat + 1 ∧ t.encOvf = false ∧
      t.encBuf.read s.encLen.toNat = b ∧ (∀ a, a ≠ s.encLen.toNat → t.encBuf.read a = s.encBuf.read a) ∧
      SameCrc s t ∧ SamePkt s t ∧ SameDec s t) ∧
    (s.encOvf = true ∨ s.encLen.toNat = 32 →
      exec (.encPut b) s = .next { s with encOvf := true, rspOut := s.rspOut ++ [0x0100] })

/-- R123. -/
def Obligations.EncLenAnswersThePacketLength : Prop :=
  Selects 0x12 (fun _ => .encLen) ∧
  ∀ s : State, s.Legal →
    (s.encOvf = true → OnlyAnswers .encLen s .lengthErr 0x00) ∧
    (s.encOvf = false → OnlyAnswers .encLen s .ok (BitVec.ofNat 8 (s.encLen.toNat + 3)))

/-- R124, R125: the header, the length byte, the payload bytes and the CRC byte, or the errors in their priority. -/
def Obligations.EncRdReadsThePacket : Prop :=
  Selects 0x13 (fun x => .encRd x.toNat) ∧
  ∀ (s : State) (i : Nat), s.Legal →
    (s.encOvf = true → OnlyAnswers (.encRd i) s .lengthErr 0x00) ∧
    (s.encOvf = false →
      (i > s.encLen.toNat + 2 → OnlyAnswers (.encRd i) s .rangeErr 0x00) ∧
      (i = 0 → OnlyAnswers (.encRd i) s .ok 0xD5) ∧
      (i = 1 → OnlyAnswers (.encRd i) s .ok (BitVec.ofNat 8 s.encLen.toNat)) ∧
      (2 ≤ i → i ≤ s.encLen.toNat + 1 → OnlyAnswers (.encRd i) s .ok (s.encBuf.read (i - 2))) ∧
      (i = s.encLen.toNat + 2 →
        OnlyAnswers (.encRd i) s .ok (crc8 ((List.range s.encLen.toNat).map s.encBuf.read))))

/-- R126: the framer's commands compute `encode`, with any commands interleaved that are no ENC.INIT or ENC.PUT of another
payload: `p` is the list of bytes the ENC.PUTs of `cs` carry. -/
def Obligations.FramerCommandsComputeEncode : Prop :=
  ∀ (s : State) (cs : List Instr) (p : List Byte), s.Legal → .encInit ∉ cs → p = cs.filterMap encPutByte →
    (∀ pre b post, cs = pre ++ .encPut b :: post → ∃ u v, execAll (.encInit :: pre) s = .next u ∧
      exec (.encPut b) u = .next v ∧
      Answers u v (if (pre.filterMap encPutByte).length < 32 then .ok else .lengthErr) 0x00) ∧
    ∃ t, execAll (.encInit :: cs) s = .next t ∧
      (∀ k, encodePacket p = .ok k → k.length = p.length + 3 ∧
        OnlyAnswers .encLen t .ok (BitVec.ofNat 8 (p.length + 3)) ∧
        ∀ i b, k[i]? = some b → OnlyAnswers (.encRd i) t .ok b) ∧
      (∀ e, encodePacket p = .error e → e = .lengthErr ∧
        ∀ ds, .encInit ∉ ds → ∃ u, execAll ds t = .next u ∧
          OnlyAnswers .encLen u .lengthErr 0x00 ∧ ∀ i, OnlyAnswers (.encRd i) u .lengthErr 0x00)

/-- R120: `encode` fails exactly above 32 bytes and otherwise gives the packet of R76. -/
def Obligations.EncodeMakesThePacket : Prop :=
  ∀ p : List Byte,
    (p.length > 32 → encodePacket p = .error .lengthErr) ∧
    (p.length ≤ 32 → encodePacket p = .ok (0xD5 :: BitVec.ofNat 8 p.length :: (p ++ [crc8 p]))) ∧
    (∀ k, encodePacket p = .ok k → k.length = p.length + 3 ∧ 3 ≤ k.length ∧ k.length ≤ 35) ∧
    encodePacket [] = .ok [0xD5, 0x00, 0x00]

/-- R127: `encode` fails above 32 bytes; the framer never emits a length byte above 32 or a total length above 35. -/
def Obligations.FramerNeverEmitsAnOversizePacket : Prop :=
  (∀ p : List Byte, p.length > 32 → ∃ e, encodePacket p = .error e) ∧
  (∀ (s t : State) (d : Byte), exec (.encRd 1) s = .next t → Answers s t .ok d → d.toNat ≤ 32) ∧
  (∀ (s t : State) (d : Byte), exec .encLen s = .next t → Answers s t .ok d → d.toNat ≤ 35) ∧
  (∀ (s t : State) (d : Byte) (i : Nat), exec (.encRd i) s = .next t → Answers s t .ok d → i < 35)

/-! ### The whole-packet deframer -/

/-- R141. -/
def Obligations.PktInitStartsAPacket : Prop :=
  Selects 0x20 (fun _ => .pktInit) ∧
  ∀ s : State, s.Legal →
    exec .pktInit s = .next { s with pktLen := 0, pktOvf := false, rspOut := s.rspOut ++ [0x0000] }

/-- R142: always OK; the byte is appended while fewer than 258 are stored, else dropped with `PKT_OVF` set. -/
def Obligations.PktPutAppendsOrOverflows : Prop :=
  Selects 0x21 .pktPut ∧
  ∀ (s : State) (b : Byte), s.Legal →
    (s.pktLen.toNat < 258 → ∃ t, exec (.pktPut b) s = .next t ∧
      Answers s t .ok 0x00 ∧ t.pktLen.toNat = s.pktLen.toNat + 1 ∧ t.pktOvf = s.pktOvf ∧
      t.pktBuf.read s.pktLen.toNat = b ∧ (∀ a, a ≠ s.pktLen.toNat → t.pktBuf.read a = s.pktBuf.read a) ∧
      SameCrc s t ∧ SameEnc s t ∧ SameDec s t) ∧
    (s.pktLen.toNat = 258 →
      exec (.pktPut b) s = .next { s with pktOvf := true, rspOut := s.rspOut ++ [0x0000] })

/-- R144 by R143's five lines, each with the lines before it not applying. -/
def Obligations.PktChkGivesTheVerdict : Prop :=
  Selects 0x22 (fun _ => .pktChk) ∧
  ∀ s : State, s.Legal →
    (s.pktOvf = false ∧ s.pktLen.toNat < 4 → OnlyAnswers .pktChk s .lengthErr 0x00) ∧
    (s.pktOvf = true ∨ 4 ≤ s.pktLen.toNat →
      (s.pktBuf.read 0 ≠ 0xD5 → OnlyAnswers .pktChk s .headerErr 0x00) ∧
      (s.pktBuf.read 0 = 0xD5 →
        (s.pktOvf = true ∨ (s.pktBuf.read 1).toNat ≠ s.pktLen.toNat - 3 → OnlyAnswers .pktChk s .lengthFieldErr 0x00) ∧
        (s.pktOvf = false → (s.pktBuf.read 1).toNat = s.pktLen.toNat - 3 →
          (s.pktBuf.read (s.pktLen.toNat - 1) ≠
              crc8 ((List.range (s.pktLen.toNat - 3)).map fun k => s.pktBuf.read (2 + k)) →
            OnlyAnswers .pktChk s .crcErr 0x00) ∧
          (s.pktBuf.read (s.pktLen.toNat - 1) =
              crc8 ((List.range (s.pktLen.toNat - 3)).map fun k => s.pktBuf.read (2 + k)) →
            OnlyAnswers .pktChk s .ok (BitVec.ofNat 8 (s.pktLen.toNat - 3)) ∧
            1 ≤ s.pktLen.toNat - 3 ∧ s.pktLen.toNat - 3 ≤ 255))))

/-- R145: what PKT.CHK would answer decides: its error has priority, then the range, then the payload byte. -/
def Obligations.PktRdReadsThePayload : Prop :=
  Selects 0x23 (fun x => .pktRd x.toNat) ∧
  ∀ (s : State) (i : Nat), s.Legal →
    (∀ st, st ≠ .ok → OnlyAnswers .pktChk s st 0x00 → OnlyAnswers (.pktRd i) s st 0x00) ∧
    (∀ d, OnlyAnswers .pktChk s .ok d →
      (i ≥ s.pktLen.toNat - 3 → OnlyAnswers (.pktRd i) s .rangeErr 0x00) ∧
      (i < s.pktLen.toNat - 3 → OnlyAnswers (.pktRd i) s .ok (s.pktBuf.read (2 + i))))

/-- R143, R140: for packets of any length, even longer than the buffer, the deframer's commands compute `decode`; `k` is the list
of bytes the PKT.PUTs of `cs` carry, any commands interleaved that are no PKT.INIT. -/
def Obligations.DeframerCommandsComputeDecode : Prop :=
  ∀ (s : State) (cs : List Instr) (k : List Byte), s.Legal → .pktInit ∉ cs → k = cs.filterMap pktPutByte →
    ∃ t, execAll (.pktInit :: cs) s = .next t ∧
      (∀ e, decodePacket k = .error e → OnlyAnswers .pktChk t e 0x00 ∧ ∀ i, OnlyAnswers (.pktRd i) t e 0x00) ∧
      (∀ p, decodePacket k = .ok p → OnlyAnswers .pktChk t .ok (BitVec.ofNat 8 p.length) ∧
        (∀ i b, p[i]? = some b → OnlyAnswers (.pktRd i) t .ok b) ∧
        (∀ i, p.length ≤ i → OnlyAnswers (.pktRd i) t .rangeErr 0x00))

/-- R146, R149: `decode` refuses every sequence shorter than 4 bytes, the empty payload's packet among them, and has no upper
limit: a right packet decodes whatever its payload of 1 to 255 bytes. -/
def Obligations.DecodeHasALowerLimitOnly : Prop :=
  (∀ k : List Byte, k.length < 4 → decodePacket k = .error .lengthErr) ∧
  decodePacket [0xD5, 0x00, 0x00] = .error .lengthErr ∧
  (∀ p : List Byte, 1 ≤ p.length → p.length ≤ 255 →
    decodePacket (0xD5 :: BitVec.ofNat 8 p.length :: (p ++ [crc8 p])) = .ok p)

/-- R147: the round trip, of the functions and through the two units' commands. -/
def Obligations.FramedPayloadsDeframe : Prop :=
  (∀ p : List Byte, 1 ≤ p.length → p.length ≤ 32 → ∃ k, encodePacket p = .ok k ∧ decodePacket k = .ok p) ∧
  (∃ k, encodePacket [] = .ok k ∧ decodePacket k = .error .lengthErr) ∧
  (∀ (s : State) (k : List Byte), s.Legal → s.encOvf = false → 1 ≤ s.encLen.toNat → k.length = s.encLen.toNat + 3 →
    (∀ i b, k[i]? = some b → OnlyAnswers (.encRd i) s .ok b) →
    ∃ t, execAll (.pktInit :: k.map .pktPut) s = .next t ∧
      OnlyAnswers .pktChk t .ok (BitVec.ofNat 8 s.encLen.toNat) ∧
      ∀ i, i < s.encLen.toNat → OnlyAnswers (.pktRd i) t .ok (s.encBuf.read i))

/-- R148: any change of one payload byte or of the CRC byte of a framed packet is a CRC error (`x ≠ 0` is the exclusive-or of
the change, one bit in particular); of the header a header error, of the length byte a length-field error. -/
def Obligations.DamagedPacketsAreDetected : Prop :=
  ∀ (p k : List Byte) (j : Nat) (x b : Byte), 1 ≤ p.length → encodePacket p = .ok k → k[j]? = some b → x ≠ 0 →
    (j = 0 → decodePacket (k.set j (b ^^^ x)) = .error .headerErr) ∧
    (j = 1 → decodePacket (k.set j (b ^^^ x)) = .error .lengthFieldErr) ∧
    (2 ≤ j → decodePacket (k.set j (b ^^^ x)) = .error .crcErr)

/-! ### The stream decoder -/

/-- R161. -/
def Obligations.DecInitMakesTheDecoderFresh : Prop :=
  Selects 0x30 (fun _ => .decInit) ∧
  ∀ s : State, s.Legal →
    exec .decInit s =
      .next { s with decState := .awaitingHeader, decExpLen := 0, decCnt := 0, rspOut := s.rspOut ++ [0x0000] }

/-- R160, R162 to R167: the ten rows of the transition table, with the data of each response and all else unchanged. -/
def Obligations.DecPushFollowsTheTransitionTable : Prop :=
  Selects 0x31 .decPush ∧
  ∀ (s : State) (b : Byte), s.Legal →
    (s.decState = .awaitingHeader →
      (b = 0xD5 → exec (.decPush b) s =
        .next { s with decState := .awaitingLength, rspOut := s.rspOut ++ [rspWord .ok 0x01] }) ∧
      (b ≠ 0xD5 → OnlyAnswers (.decPush b) s .headerErr 0x00)) ∧
    (s.decState = .awaitingLength →
      (b = 0 → exec (.decPush b) s =
        .next { s with decState := .awaitingCrc, decExpLen := 0, rspOut := s.rspOut ++ [rspWord .ok 0x03] }) ∧
      (1 ≤ b.toNat → b.toNat ≤ 32 → ∃ e, e.toNat = b.toNat ∧ exec (.decPush b) s =
        .next { s with decState := .awaitingData, decExpLen := e, rspOut := s.rspOut ++ [rspWord .ok 0x02] }) ∧
      (32 < b.toNat → OnlyAnswers (.decPush b) s .lengthFieldErr 0x00)) ∧
    (s.decState = .awaitingData → ∃ t, exec (.decPush b) s = .next t ∧
      t.decCnt.toNat = s.decCnt.toNat + 1 ∧ t.decExpLen = s.decExpLen ∧
      t.decBuf.read s.decCnt.toNat = b ∧ (∀ a, a ≠ s.decCnt.toNat → t.decBuf.read a = s.decBuf.read a) ∧
      SameCrc s t ∧ SameEnc s t ∧ SamePkt s t ∧
      (s.decCnt.toNat + 1 < s.decExpLen.toNat → t.decState = .awaitingData ∧ Answers s t .ok 0x02) ∧
      (s.decCnt.toNat + 1 = s.decExpLen.toNat → t.decState = .awaitingCrc ∧ Answers s t .ok 0x03)) ∧
    (s.decState = .awaitingCrc →
      (b = crc8 ((List.range s.decCnt.toNat).map s.decBuf.read) → exec (.decPush b) s =
        .next { s with decState := .ready, rspOut := s.rspOut ++ [rspWord .ok 0x04] }) ∧
      (b ≠ crc8 ((List.range s.decCnt.toNat).map s.decBuf.read) → OnlyAnswers (.decPush b) s .crcErr 0x00)) ∧
    (s.decState = .ready → OnlyAnswers (.decPush b) s .stateErr 0x00)

/-- R168, R169: the state's code and the count, in every decoder state. -/
def Obligations.DecStatAndDecLenRead : Prop :=
  Selects 0x32 (fun _ => .decStat) ∧ Selects 0x33 (fun _ => .decLen) ∧
  ∀ s : State, s.Legal →
    (s.decState = .awaitingHeader → OnlyAnswers .decStat s .ok 0x00) ∧
    (s.decState = .awaitingLength → OnlyAnswers .decStat s .ok 0x01) ∧
    (s.decState = .awaitingData → OnlyAnswers .decStat s .ok 0x02) ∧
    (s.decState = .awaitingCrc → OnlyAnswers .decStat s .ok 0x03) ∧
    (s.decState = .ready → OnlyAnswers .decStat s .ok 0x04) ∧
    OnlyAnswers .decLen s .ok (BitVec.ofNat 8 s.decCnt.toNat)

/-- R170. -/
def Obligations.DecRdReadsThePayload : Prop :=
  Selects 0x34 (fun x => .decRd x.toNat) ∧
  ∀ (s : State) (i : Nat), s.Legal →
    (s.decState ≠ .ready → OnlyAnswers (.decRd i) s .stateErr 0x00) ∧
    (s.decState = .ready →
      (i ≥ s.decCnt.toNat → OnlyAnswers (.decRd i) s .rangeErr 0x00) ∧
      (i < s.decCnt.toNat → OnlyAnswers (.decRd i) s .ok (s.decBuf.read i)))

/-- R171: a framed payload pushed byte by byte after DEC.INIT, or from reset (any state with a fresh decoder): OK at every push,
the stated state after each, Ready at the last and not before, and the payload that `decode` would produce. -/
def Obligations.StreamingAFramedPayloadReachesReady : Prop :=
  ∀ (s : State) (p k : List Byte) (cs : List Instr), s.Legal → encodePacket p = .ok k →
    (cs = [.decInit] ∨ cs = [] ∧ s.decState = .awaitingHeader) →
    (∀ j, j ≤ p.length + 3 → ∃ t, execAll (cs ++ (k.take j).map .decPush) s = .next t ∧
      t.decState = streamState p.length j ∧
      t.rspOut = s.rspOut ++ (cs.map (fun _ => 0x0000) ++
        (List.range j).map (fun m => rspWord .ok (decStateByte (streamState p.length (m + 1)))))) ∧
    ∃ t, execAll (cs ++ k.map .decPush) s = .next t ∧ t.decState = .ready ∧ t.decCnt.toNat = p.length ∧
      (List.range t.decCnt.toNat).map t.decBuf.read = p ∧
      (1 ≤ p.length → decodePacket k = .ok p) ∧ (p = [] → decodePacket k = .error .lengthErr)

/-- R172: the OK pushes that take a fresh decoder to Ready are three more than the payload's bytes, whatever errors stand between. -/
def Obligations.ReadyTakesLengthPlusThreeOkPushes : Prop :=
  ∀ (s t : State) (bs : List Byte), s.Legal → execAll (.decInit :: bs.map .decPush) s = .next t → t.decState = .ready →
    ((t.rspOut.drop (s.rspOut.length + 1)).filter (fun r => rspStatus r == statusCode .ok)).length = t.decCnt.toNat + 3

/-- R173: noise without the byte 0xD5 before a framed payload is skipped, each byte answering HEADER_ERR. -/
def Obligations.NoiseWithoutHeadersIsSkipped : Prop :=
  ∀ (s : State) (junk p k : List Byte), s.Legal → 0xD5 ∉ junk → encodePacket p = .ok k →
    (∃ u, execAll (.decInit :: junk.map .decPush) s = .next u ∧ u.decState = .awaitingHeader ∧
      u.rspOut = s.rspOut ++ 0x0000 :: List.replicate junk.length 0x0200) ∧
    ∃ t, execAll (.decInit :: (junk ++ k).map .decPush) s = .next t ∧ t.decState = .ready ∧
      (List.range t.decCnt.toNat).map t.decBuf.read = p

/-! ### Pseudo-instructions -/

/-- R79: each pseudo-instruction, expanded and, where it depends on a response, read back, meets the document's contract:
CRC8 gives `crc8`, ENCODE the packet of `encode`, DECODE the payload of `decode`, and an error is the last response's status. -/
def Obligations.PseudoInstructionsMeetTheContracts : Prop :=
  ∀ (s : State) (bs : List Byte), s.Legal →
    (∃ t, execAll (Pseudo.crc8 bs).expand s = .next t ∧ t.rspOut.getLast? = some (rspWord .ok (crc8 bs))) ∧
    (∃ t r, execAll (Pseudo.encode bs).expand s = .next t ∧ t.rspOut.getLast? = some r ∧
      (∀ k, encodePacket bs = .ok k → ∃ u, execAll ((Pseudo.encode bs).readBack r) t = .next u ∧
        u.rspOut = t.rspOut ++ k.map (rspWord .ok)) ∧
      (∀ e, encodePacket bs = .error e → r = rspWord e 0x00 ∧ (Pseudo.encode bs).readBack r = [])) ∧
    (∃ t r, execAll (Pseudo.decode bs).expand s = .next t ∧ t.rspOut.getLast? = some r ∧
      (∀ p, decodePacket bs = .ok p → ∃ u, execAll ((Pseudo.decode bs).readBack r) t = .next u ∧
        u.rspOut = t.rspOut ++ p.map (rspWord .ok)) ∧
      (∀ e, decodePacket bs = .error e → r = rspWord e 0x00 ∧ (Pseudo.decode bs).readBack r = []))

/-! ### The pins -/

/-- R80, R81, R221: what the handshake does at an edge: nothing is ready or valid under `rst`; a command is accepted only with
none outstanding, and is outstanding until its response is delivered; a response not taken is held. That `rsp_valid`, once raised,
stays raised meanwhile is the model's inference (log 16). -/
def Obligations.PortHandshakeFollowsTheProtocol : Prop :=
  (∀ p : PortState, (p.outputs true).cmdReady = false ∧ (p.outputs true).rspValid = false) ∧
  (∀ (p q : PortState) (i : PinsIn) (w : CmdWord), p.phase ≠ .beforeReset → p.accepts i = some w → p.clock i = .next q →
    p.phase = .accepting 0 ∧ i.rst = false ∧ i.cmdValid = true ∧ w = i.cmd ∧
    (∃ r n, q.phase = .answering r n) ∧ q.core.rspOut = p.core.rspOut) ∧
  (∀ (p : PortState) (i : PinsIn) (r : RspWord) (n : Nat), p.phase = .answering r n → p.accepts i = none) ∧
  (∀ (p q : PortState) (i : PinsIn) (r : RspWord) (n : Nat), p.phase = .answering r n → i.rst = false → p.clock i = .next q →
    (p.delivers i = none → (∃ m, m ≤ n ∧ q.phase = .answering r m) ∧ q.core = p.core) ∧
    (∀ d, p.delivers i = some d → n = 0 ∧ d = r ∧ i.rspReady = true ∧ (∃ m, q.phase = .accepting m) ∧
      q.core = { p.core with rspOut := p.core.rspOut ++ [r] }))

/-- R220, R221: one edge with `rst` = 1 puts the whole state at its reset values from any state, drops an outstanding command
without a response, and accepts and delivers nothing; before the first reset the model refuses. -/
def Obligations.ResetEdgeResetsTheBlock : Prop :=
  ∀ (p : PortState) (i : PinsIn),
    (i.rst = true → p.accepts i = none ∧ p.delivers i = none ∧ ∃ q n, p.clock i = .next q ∧ q.phase = .accepting n ∧
      q.core.crcAcc = 0x00 ∧ q.core.encLen = 0 ∧ q.core.encOvf = false ∧ q.core.pktLen = 0 ∧ q.core.pktOvf = false ∧
      q.core.decState = .awaitingHeader ∧ q.core.decExpLen = 0 ∧ q.core.decCnt = 0 ∧ q.core.rspOut = p.core.rspOut) ∧
    (i.rst = false → p.phase = .beforeReset → p.clock i = .refused .beforeFirstReset)

/-- R81, R82: the pins add nothing to the transaction function. Over any edges without reset from a legal block with no command
outstanding, the words accepted, run as transactions, give the block's final registers and, in order, exactly the responses
delivered and at most one still to be delivered. -/
def Obligations.PortsRefineTheTransactions : Prop :=
  ∀ (p : PortState) (n : Nat) (is : List PinsIn) (tr : PortTrace), p.phase = .accepting n → p.core.Legal →
    (∀ i ∈ is, i.rst = false) → p.run is = .next tr →
    ∃ t pending, transactAll tr.accepted p.core = .next t ∧ t.rspOut = p.core.rspOut ++ (tr.delivered ++ pending) ∧
      tr.last.core = { t with rspOut := p.core.rspOut ++ tr.delivered } ∧
      (pending = [] ∧ (∃ m, tr.last.phase = .accepting m) ∨ ∃ r m, pending = [r] ∧ tr.last.phase = .answering r m)

/-- R232, R81 (d): an accepted command is answered after finitely many edges when the host holds `rsp_ready`, and the block
then becomes ready for the next; the counts of edges are free values (log 10). -/
def Obligations.EveryAcceptedCommandIsAnswered : Prop :=
  (∀ (p : PortState) (r : RspWord) (n : Nat) (i : PinsIn), p.phase = .answering r n → i.rst = false → i.rspReady = true →
    ∃ tr, p.run (List.replicate (n + 1) i) = .next tr ∧ tr.delivered = [r] ∧ tr.accepted = []) ∧
  (∀ (p : PortState) (n : Nat) (i : PinsIn), p.phase = .accepting n → p.core.Legal → i.rst = false → i.cmdValid = true →
    ∃ tr, p.run (List.replicate (n + 1) i) = .next tr ∧ tr.accepted = [i.cmd] ∧ tr.delivered = [])
end

