-- ==== Sys2Proof/Laws/Encoding.lean ====
section
/-! SUPPORT. The fields of a format-C word, and that a word is made of its three fields. -/

namespace Sys2Proof

theorem formatC_getLsbD (u f : BitVec 4) (b : Byte) (i : Nat) :
    (formatC u f b).getLsbD i =
      if i < 8 then b.getLsbD i else if i < 12 then f.getLsbD (i - 8) else u.getLsbD (i - 12) := by
  have h : (formatC u f b).getLsbD i = (u ++ f ++ b : BitVec (4 + 4 + 8)).getLsbD i := rfl
  rw [h, BitVec.getLsbD_append, BitVec.getLsbD_append]
  by_cases h8 : i < 8
  · simp [h8]
  · simp only [h8, if_false]
    by_cases h12 : i < 12
    · simp [h12, show i - 8 < 4 by omega]
    · simp [h12, show ¬ i - 8 < 4 by omega, Nat.sub_sub]

@[simp] theorem cmdUnit_formatC (u f : BitVec 4) (b : Byte) : cmdUnit (formatC u f b) = u := by
  apply BitVec.eq_of_getLsbD_eq
  intro i hi
  simp [cmdUnit, formatC_getLsbD, hi, show ¬ 12 + i < 8 by omega]

@[simp] theorem cmdFunc_formatC (u f : BitVec 4) (b : Byte) : cmdFunc (formatC u f b) = f := by
  apply BitVec.eq_of_getLsbD_eq
  intro i hi
  simp [cmdFunc, formatC_getLsbD, hi, show 8 + i < 12 by omega]

@[simp] theorem operandByte_formatC (u f : BitVec 4) (b : Byte) : operandByte (formatC u f b) = b := by
  apply BitVec.eq_of_getLsbD_eq
  intro i hi
  simp [operandByte, formatC_getLsbD, hi]

@[simp] theorem cmdOpcode_formatC (u f : BitVec 4) (b : Byte) : cmdOpcode (formatC u f b) = u ++ f := by
  apply BitVec.eq_of_getLsbD_eq
  intro i hi
  have h : (u ++ f : Byte).getLsbD i = (u ++ f : BitVec (4 + 4)).getLsbD i := rfl
  rw [h, BitVec.getLsbD_append]
  simp only [cmdOpcode, BitVec.getLsbD_extractLsb', formatC_getLsbD, hi, decide_true, Bool.true_and,
    show ¬ 8 + i < 8 by omega, if_false]
  by_cases h4 : i < 4
  · simp [h4, show 8 + i < 12 by omega]
  · simp [h4, show ¬ 8 + i < 12 by omega, show 8 + i - 12 = i - 4 by omega]

/-- A word is its unit, function and operand. -/
theorem formatC_fields (w : CmdWord) : formatC (cmdUnit w) (cmdFunc w) (operandByte w) = w := by
  apply BitVec.eq_of_getLsbD_eq
  intro i hi
  simp only [formatC_getLsbD, cmdUnit, cmdFunc, operandByte, BitVec.getLsbD_extractLsb']
  by_cases h8 : i < 8
  · simp [h8]
  · by_cases h12 : i < 12
    · simp [h8, h12, show i - 8 < 4 by omega, show 8 + (i - 8) = i by omega]
    · simp [h8, h12, show i - 12 < 4 by omega, show 12 + (i - 12) = i by omega]

@[simp] theorem indexByte_toNat (b : Byte) : indexByte b.toNat = b := by simp [indexByte]

/-- An index that fits is the unsigned value of its byte. -/
theorem toNat_indexByte {i : Nat} (h : indexFits i = true) : (indexByte i).toNat = i := by
  have : i < 256 := by simpa [indexFits] using h
  simp [indexByte]
  omega

end Sys2Proof
end

