-- ==== Sys2Proof/Laws/Memory.lean ====
section
/-! SUPPORT. The laws of one buffer's bytes: what a write changes and leaves, that it keeps the canonical form, and slices. -/

namespace Sys2Proof.Machine

@[simp] theorem Memory.read_nil (a : Nat) : Memory.read [] a = Memory.fill := rfl

theorem Memory.read_erase (m : Memory) (a k : Nat) :
    (m.erase k).read a = if a = k then Memory.fill else m.read a := by
  induction m with
  | nil => simp [Memory.erase, Memory.read]
  | cons c m ih =>
    obtain ⟨l, v⟩ := c
    simp only [Memory.erase, Memory.read, List.filter_cons] at ih ⊢
    by_cases hl : l = k <;> by_cases ha : l = a <;> simp_all [Memory.read]

theorem Memory.read_insert_same (m : Memory) (a : Nat) (v : Byte) (h : ∀ c ∈ m, c.1 ≠ a) :
    (m.insert a v).read a = v := by
  induction m with
  | nil => simp [Memory.insert, Memory.read]
  | cons c m ih =>
    obtain ⟨l, w⟩ := c
    have hl : l ≠ a := h (l, w) (by simp)
    have ih := ih (fun c hc => h c (by simp [hc]))
    unfold Memory.insert
    split <;> simp [Memory.read, hl, ih]

theorem Memory.read_insert_other (m : Memory) {a k : Nat} (v : Byte) (h : a ≠ k) :
    (m.insert k v).read a = m.read a := by
  induction m with
  | nil => simp [Memory.insert, Memory.read, Ne.symm h]
  | cons c m ih =>
    obtain ⟨l, w⟩ := c
    unfold Memory.insert
    split <;> simp [Memory.read, Ne.symm h, ih]

/-- A read after a write to the same place gives the byte written. -/
@[simp] theorem Memory.read_write_same (m : Memory) (a : Nat) (v : Byte) : (m.write a v).read a = v := by
  unfold Memory.write
  split
  · next h => simp [Memory.read_erase, h]
  · exact Memory.read_insert_same _ _ _ (by simp [Memory.erase])

/-- A write leaves every other place alone. -/
theorem Memory.read_write_other (m : Memory) {a k : Nat} (v : Byte) (h : a ≠ k) :
    (m.write k v).read a = m.read a := by
  unfold Memory.write
  split
  · simp [Memory.read_erase, h]
  · rw [Memory.read_insert_other _ _ h, Memory.read_erase, if_neg h]

/-! ### The canonical form -/

/-- The canonical form said of the whole list at once. -/
theorem Memory.wf_iff (m : Memory) :
    m.wf = true ↔ m.Pairwise (fun c d => c.1 < d.1) ∧ ∀ c ∈ m, c.2 ≠ Memory.fill := by
  induction m with
  | nil => simp [Memory.wf]
  | cons c m ih =>
    obtain ⟨k, v⟩ := c
    cases m with
    | nil => simp [Memory.wf]
    | cons d m =>
      obtain ⟨l, w⟩ := d
      simp only [Memory.wf, Bool.and_eq_true, bne_iff_ne, decide_eq_true_eq, ih, List.pairwise_cons,
        List.mem_cons, forall_eq_or_imp]
      constructor
      · rintro ⟨⟨hv, hk⟩, ⟨hl, hp⟩, hw, hm⟩
        exact ⟨⟨⟨hk, fun c hc => lt_trans hk (hl c hc)⟩, hl, hp⟩, hv, hw, hm⟩
      · rintro ⟨⟨⟨hk, -⟩, hl, hp⟩, hv, hw, hm⟩
        exact ⟨⟨hv, hk⟩, ⟨hl, hp⟩, hw, hm⟩

theorem Memory.mem_insert (m : Memory) (a : Nat) (v : Byte) (c : Host.Cell) :
    c ∈ m.insert a v ↔ c = (a, v) ∨ c ∈ m := by
  induction m with
  | nil => simp [Memory.insert]
  | cons d m ih =>
    obtain ⟨l, w⟩ := d
    unfold Memory.insert
    split
    · simp
    · simp [ih]; tauto

theorem Memory.insert_pairwise (m : Memory) (a : Nat) (v : Byte) (hne : ∀ c ∈ m, c.1 ≠ a)
    (h : m.Pairwise (fun c d => c.1 < d.1)) : (m.insert a v).Pairwise (fun c d => c.1 < d.1) := by
  induction m with
  | nil => simp [Memory.insert]
  | cons d m ih =>
    obtain ⟨l, w⟩ := d
    have hl : l ≠ a := hne (l, w) (by simp)
    rw [List.pairwise_cons] at h
    unfold Memory.insert
    split
    · next ha =>
      refine List.pairwise_cons.2 ⟨?_, List.pairwise_cons.2 h⟩
      rintro c (_ | ⟨_, hc⟩)
      · exact ha
      · exact lt_trans ha (h.1 c hc)
    · next ha =>
      refine List.pairwise_cons.2 ⟨fun c hc => ?_, ih (fun c hc => hne c (by simp [hc])) h.2⟩
      rcases (Memory.mem_insert m a v c).1 hc with rfl | hc
      · show l < a
        omega
      · exact h.1 c hc

/-- Every write keeps the canonical form. -/
theorem Memory.write_wf (m : Memory) (a : Nat) (v : Byte) (h : m.wf = true) : (m.write a v).wf = true := by
  rw [Memory.wf_iff] at h ⊢
  have he : (m.erase a).Pairwise (fun c d => c.1 < d.1) := h.1.filter _
  have hf : ∀ c ∈ m.erase a, c.2 ≠ Memory.fill := fun c hc => h.2 c (List.mem_of_mem_filter hc)
  unfold Memory.write
  split
  · exact ⟨he, hf⟩
  · next hv =>
    refine ⟨Memory.insert_pairwise _ _ _ (by simp [Memory.erase]) he, fun c hc => ?_⟩
    rcases (Memory.mem_insert _ _ _ _).1 hc with rfl | hc
    · exact hv
    · exact hf c hc

/-- A write below the capacity lists no index outside the buffer. -/
theorem Memory.write_within (m : Memory) {a cap : Nat} (v : Byte) (ha : a < cap) (h : m.within cap = true) :
    (m.write a v).within cap = true := by
  simp only [Memory.within, List.all_eq_true, decide_eq_true_eq] at h ⊢
  intro c hc
  unfold Memory.write at hc
  split at hc
  · exact h c (List.mem_of_mem_filter hc)
  · rcases (Memory.mem_insert _ _ _ _).1 hc with rfl | hc
    · exact ha
    · exact h c (List.mem_of_mem_filter hc)

/-! ### Slices -/

@[simp] theorem Memory.slice_length (m : Memory) (lo hi : Nat) : (m.slice lo hi).length = hi - lo := by
  simp [Memory.slice]

theorem Memory.slice_zero (m : Memory) (n : Nat) : m.slice 0 n = (List.range n).map m.read := by
  simp [Memory.slice]

@[simp] theorem Memory.slice_empty (m : Memory) (lo : Nat) : m.slice lo lo = [] := by simp [Memory.slice]

/-- Two buffers that read alike on a range have the same slice of it. -/
theorem Memory.slice_congr {m m' : Memory} {lo hi : Nat} (h : ∀ a, a < hi → m.read a = m'.read a) :
    m.slice lo hi = m'.slice lo hi := by
  refine List.map_congr_left fun k hk => h _ ?_
  have := List.mem_range.1 hk
  omega

/-- An append extends the filled part of the buffer by the byte. -/
theorem Memory.slice_write_end (m : Memory) (n : Nat) (v : Byte) :
    (m.write n v).slice 0 (n + 1) = m.slice 0 n ++ [v] := by
  simp only [Memory.slice_zero, List.range_succ, List.map_append, List.map_cons, List.map_nil, Memory.read_write_same]
  congr 1
  exact List.map_congr_left fun k hk => Memory.read_write_other m v (by have := List.mem_range.1 hk; omega)

/-- The byte at an index of the filled part. -/
theorem Memory.slice_getElem? (m : Memory) {n a : Nat} (h : a < n) : (m.slice 0 n)[a]? = some (m.read a) := by
  simp [Memory.slice_zero, h]

end Sys2Proof.Machine
end

