-- ==== Sys2Proof/Laws/State.lean ====
section
/-! SUPPORT. One lemma per field per update of State, each true by rfl, so that no proof unfolds a record update. -/

namespace Sys2Proof.Machine

variable (s : State)

@[simp] theorem State.respond_crcAcc (st : Status) (d : Byte) : (s.respond st d).crcAcc = s.crcAcc := rfl
@[simp] theorem State.respond_encBuf (st : Status) (d : Byte) : (s.respond st d).encBuf = s.encBuf := rfl
@[simp] theorem State.respond_encLen (st : Status) (d : Byte) : (s.respond st d).encLen = s.encLen := rfl
@[simp] theorem State.respond_encOvf (st : Status) (d : Byte) : (s.respond st d).encOvf = s.encOvf := rfl
@[simp] theorem State.respond_pktBuf (st : Status) (d : Byte) : (s.respond st d).pktBuf = s.pktBuf := rfl
@[simp] theorem State.respond_pktLen (st : Status) (d : Byte) : (s.respond st d).pktLen = s.pktLen := rfl
@[simp] theorem State.respond_pktOvf (st : Status) (d : Byte) : (s.respond st d).pktOvf = s.pktOvf := rfl
@[simp] theorem State.respond_decState (st : Status) (d : Byte) : (s.respond st d).decState = s.decState := rfl
@[simp] theorem State.respond_decExpLen (st : Status) (d : Byte) : (s.respond st d).decExpLen = s.decExpLen := rfl
@[simp] theorem State.respond_decBuf (st : Status) (d : Byte) : (s.respond st d).decBuf = s.decBuf := rfl
@[simp] theorem State.respond_decCnt (st : Status) (d : Byte) : (s.respond st d).decCnt = s.decCnt := rfl
@[simp] theorem State.respond_cmdIn (st : Status) (d : Byte) : (s.respond st d).cmdIn = s.cmdIn := rfl
@[simp] theorem State.respond_rspOut (st : Status) (d : Byte) : (s.respond st d).rspOut = s.rspOut ++ [rspWord st d] := rfl

@[simp] theorem State.respondErr_crcAcc (st : Status) : (s.respondErr st).crcAcc = s.crcAcc := rfl
@[simp] theorem State.respondErr_encBuf (st : Status) : (s.respondErr st).encBuf = s.encBuf := rfl
@[simp] theorem State.respondErr_encLen (st : Status) : (s.respondErr st).encLen = s.encLen := rfl
@[simp] theorem State.respondErr_encOvf (st : Status) : (s.respondErr st).encOvf = s.encOvf := rfl
@[simp] theorem State.respondErr_pktBuf (st : Status) : (s.respondErr st).pktBuf = s.pktBuf := rfl
@[simp] theorem State.respondErr_pktLen (st : Status) : (s.respondErr st).pktLen = s.pktLen := rfl
@[simp] theorem State.respondErr_pktOvf (st : Status) : (s.respondErr st).pktOvf = s.pktOvf := rfl
@[simp] theorem State.respondErr_decState (st : Status) : (s.respondErr st).decState = s.decState := rfl
@[simp] theorem State.respondErr_decExpLen (st : Status) : (s.respondErr st).decExpLen = s.decExpLen := rfl
@[simp] theorem State.respondErr_decBuf (st : Status) : (s.respondErr st).decBuf = s.decBuf := rfl
@[simp] theorem State.respondErr_decCnt (st : Status) : (s.respondErr st).decCnt = s.decCnt := rfl
@[simp] theorem State.respondErr_cmdIn (st : Status) : (s.respondErr st).cmdIn = s.cmdIn := rfl
@[simp] theorem State.respondErr_rspOut (st : Status) : (s.respondErr st).rspOut = s.rspOut ++ [rspWord st 0x00] := rfl

@[simp] theorem State.encAppend_crcAcc (b : Byte) : (s.encAppend b).crcAcc = s.crcAcc := rfl
@[simp] theorem State.encAppend_encBuf (b : Byte) : (s.encAppend b).encBuf = s.encBuf.write s.encLen.toNat b := rfl
@[simp] theorem State.encAppend_encLen (b : Byte) : (s.encAppend b).encLen = s.encLen + 1 := rfl
@[simp] theorem State.encAppend_encOvf (b : Byte) : (s.encAppend b).encOvf = s.encOvf := rfl
@[simp] theorem State.encAppend_pktBuf (b : Byte) : (s.encAppend b).pktBuf = s.pktBuf := rfl
@[simp] theorem State.encAppend_pktLen (b : Byte) : (s.encAppend b).pktLen = s.pktLen := rfl
@[simp] theorem State.encAppend_pktOvf (b : Byte) : (s.encAppend b).pktOvf = s.pktOvf := rfl
@[simp] theorem State.encAppend_decState (b : Byte) : (s.encAppend b).decState = s.decState := rfl
@[simp] theorem State.encAppend_decExpLen (b : Byte) : (s.encAppend b).decExpLen = s.decExpLen := rfl
@[simp] theorem State.encAppend_decBuf (b : Byte) : (s.encAppend b).decBuf = s.decBuf := rfl
@[simp] theorem State.encAppend_decCnt (b : Byte) : (s.encAppend b).decCnt = s.decCnt := rfl
@[simp] theorem State.encAppend_cmdIn (b : Byte) : (s.encAppend b).cmdIn = s.cmdIn := rfl
@[simp] theorem State.encAppend_rspOut (b : Byte) : (s.encAppend b).rspOut = s.rspOut := rfl

@[simp] theorem State.pktAppend_crcAcc (b : Byte) : (s.pktAppend b).crcAcc = s.crcAcc := rfl
@[simp] theorem State.pktAppend_encBuf (b : Byte) : (s.pktAppend b).encBuf = s.encBuf := rfl
@[simp] theorem State.pktAppend_encLen (b : Byte) : (s.pktAppend b).encLen = s.encLen := rfl
@[simp] theorem State.pktAppend_encOvf (b : Byte) : (s.pktAppend b).encOvf = s.encOvf := rfl
@[simp] theorem State.pktAppend_pktBuf (b : Byte) : (s.pktAppend b).pktBuf = s.pktBuf.write s.pktLen.toNat b := rfl
@[simp] theorem State.pktAppend_pktLen (b : Byte) : (s.pktAppend b).pktLen = s.pktLen + 1 := rfl
@[simp] theorem State.pktAppend_pktOvf (b : Byte) : (s.pktAppend b).pktOvf = s.pktOvf := rfl
@[simp] theorem State.pktAppend_decState (b : Byte) : (s.pktAppend b).decState = s.decState := rfl
@[simp] theorem State.pktAppend_decExpLen (b : Byte) : (s.pktAppend b).decExpLen = s.decExpLen := rfl
@[simp] theorem State.pktAppend_decBuf (b : Byte) : (s.pktAppend b).decBuf = s.decBuf := rfl
@[simp] theorem State.pktAppend_decCnt (b : Byte) : (s.pktAppend b).decCnt = s.decCnt := rfl
@[simp] theorem State.pktAppend_cmdIn (b : Byte) : (s.pktAppend b).cmdIn = s.cmdIn := rfl
@[simp] theorem State.pktAppend_rspOut (b : Byte) : (s.pktAppend b).rspOut = s.rspOut := rfl

@[simp] theorem State.decAppend_crcAcc (b : Byte) : (s.decAppend b).crcAcc = s.crcAcc := rfl
@[simp] theorem State.decAppend_encBuf (b : Byte) : (s.decAppend b).encBuf = s.encBuf := rfl
@[simp] theorem State.decAppend_encLen (b : Byte) : (s.decAppend b).encLen = s.encLen := rfl
@[simp] theorem State.decAppend_encOvf (b : Byte) : (s.decAppend b).encOvf = s.encOvf := rfl
@[simp] theorem State.decAppend_pktBuf (b : Byte) : (s.decAppend b).pktBuf = s.pktBuf := rfl
@[simp] theorem State.decAppend_pktLen (b : Byte) : (s.decAppend b).pktLen = s.pktLen := rfl
@[simp] theorem State.decAppend_pktOvf (b : Byte) : (s.decAppend b).pktOvf = s.pktOvf := rfl
@[simp] theorem State.decAppend_decState (b : Byte) : (s.decAppend b).decState = s.decState := rfl
@[simp] theorem State.decAppend_decExpLen (b : Byte) : (s.decAppend b).decExpLen = s.decExpLen := rfl
@[simp] theorem State.decAppend_decBuf (b : Byte) : (s.decAppend b).decBuf = s.decBuf.write s.decCnt.toNat b := rfl
@[simp] theorem State.decAppend_decCnt (b : Byte) : (s.decAppend b).decCnt = s.decCnt + 1 := rfl
@[simp] theorem State.decAppend_cmdIn (b : Byte) : (s.decAppend b).cmdIn = s.cmdIn := rfl
@[simp] theorem State.decAppend_rspOut (b : Byte) : (s.decAppend b).rspOut = s.rspOut := rfl

@[simp] theorem State.setEncOvf_crcAcc : (s.setEncOvf).crcAcc = s.crcAcc := rfl
@[simp] theorem State.setEncOvf_encBuf : (s.setEncOvf).encBuf = s.encBuf := rfl
@[simp] theorem State.setEncOvf_encLen : (s.setEncOvf).encLen = s.encLen := rfl
@[simp] theorem State.setEncOvf_encOvf : (s.setEncOvf).encOvf = true := rfl
@[simp] theorem State.setEncOvf_pktBuf : (s.setEncOvf).pktBuf = s.pktBuf := rfl
@[simp] theorem State.setEncOvf_pktLen : (s.setEncOvf).pktLen = s.pktLen := rfl
@[simp] theorem State.setEncOvf_pktOvf : (s.setEncOvf).pktOvf = s.pktOvf := rfl
@[simp] theorem State.setEncOvf_decState : (s.setEncOvf).decState = s.decState := rfl
@[simp] theorem State.setEncOvf_decExpLen : (s.setEncOvf).decExpLen = s.decExpLen := rfl
@[simp] theorem State.setEncOvf_decBuf : (s.setEncOvf).decBuf = s.decBuf := rfl
@[simp] theorem State.setEncOvf_decCnt : (s.setEncOvf).decCnt = s.decCnt := rfl
@[simp] theorem State.setEncOvf_cmdIn : (s.setEncOvf).cmdIn = s.cmdIn := rfl
@[simp] theorem State.setEncOvf_rspOut : (s.setEncOvf).rspOut = s.rspOut := rfl

@[simp] theorem State.setPktOvf_crcAcc : (s.setPktOvf).crcAcc = s.crcAcc := rfl
@[simp] theorem State.setPktOvf_encBuf : (s.setPktOvf).encBuf = s.encBuf := rfl
@[simp] theorem State.setPktOvf_encLen : (s.setPktOvf).encLen = s.encLen := rfl
@[simp] theorem State.setPktOvf_encOvf : (s.setPktOvf).encOvf = s.encOvf := rfl
@[simp] theorem State.setPktOvf_pktBuf : (s.setPktOvf).pktBuf = s.pktBuf := rfl
@[simp] theorem State.setPktOvf_pktLen : (s.setPktOvf).pktLen = s.pktLen := rfl
@[simp] theorem State.setPktOvf_pktOvf : (s.setPktOvf).pktOvf = true := rfl
@[simp] theorem State.setPktOvf_decState : (s.setPktOvf).decState = s.decState := rfl
@[simp] theorem State.setPktOvf_decExpLen : (s.setPktOvf).decExpLen = s.decExpLen := rfl
@[simp] theorem State.setPktOvf_decBuf : (s.setPktOvf).decBuf = s.decBuf := rfl
@[simp] theorem State.setPktOvf_decCnt : (s.setPktOvf).decCnt = s.decCnt := rfl
@[simp] theorem State.setPktOvf_cmdIn : (s.setPktOvf).cmdIn = s.cmdIn := rfl
@[simp] theorem State.setPktOvf_rspOut : (s.setPktOvf).rspOut = s.rspOut := rfl

@[simp] theorem State.clearEnc_crcAcc : (s.clearEnc).crcAcc = s.crcAcc := rfl
@[simp] theorem State.clearEnc_encBuf : (s.clearEnc).encBuf = s.encBuf := rfl
@[simp] theorem State.clearEnc_encLen : (s.clearEnc).encLen = 0 := rfl
@[simp] theorem State.clearEnc_encOvf : (s.clearEnc).encOvf = false := rfl
@[simp] theorem State.clearEnc_pktBuf : (s.clearEnc).pktBuf = s.pktBuf := rfl
@[simp] theorem State.clearEnc_pktLen : (s.clearEnc).pktLen = s.pktLen := rfl
@[simp] theorem State.clearEnc_pktOvf : (s.clearEnc).pktOvf = s.pktOvf := rfl
@[simp] theorem State.clearEnc_decState : (s.clearEnc).decState = s.decState := rfl
@[simp] theorem State.clearEnc_decExpLen : (s.clearEnc).decExpLen = s.decExpLen := rfl
@[simp] theorem State.clearEnc_decBuf : (s.clearEnc).decBuf = s.decBuf := rfl
@[simp] theorem State.clearEnc_decCnt : (s.clearEnc).decCnt = s.decCnt := rfl
@[simp] theorem State.clearEnc_cmdIn : (s.clearEnc).cmdIn = s.cmdIn := rfl
@[simp] theorem State.clearEnc_rspOut : (s.clearEnc).rspOut = s.rspOut := rfl

@[simp] theorem State.clearPkt_crcAcc : (s.clearPkt).crcAcc = s.crcAcc := rfl
@[simp] theorem State.clearPkt_encBuf : (s.clearPkt).encBuf = s.encBuf := rfl
@[simp] theorem State.clearPkt_encLen : (s.clearPkt).encLen = s.encLen := rfl
@[simp] theorem State.clearPkt_encOvf : (s.clearPkt).encOvf = s.encOvf := rfl
@[simp] theorem State.clearPkt_pktBuf : (s.clearPkt).pktBuf = s.pktBuf := rfl
@[simp] theorem State.clearPkt_pktLen : (s.clearPkt).pktLen = 0 := rfl
@[simp] theorem State.clearPkt_pktOvf : (s.clearPkt).pktOvf = false := rfl
@[simp] theorem State.clearPkt_decState : (s.clearPkt).decState = s.decState := rfl
@[simp] theorem State.clearPkt_decExpLen : (s.clearPkt).decExpLen = s.decExpLen := rfl
@[simp] theorem State.clearPkt_decBuf : (s.clearPkt).decBuf = s.decBuf := rfl
@[simp] theorem State.clearPkt_decCnt : (s.clearPkt).decCnt = s.decCnt := rfl
@[simp] theorem State.clearPkt_cmdIn : (s.clearPkt).cmdIn = s.cmdIn := rfl
@[simp] theorem State.clearPkt_rspOut : (s.clearPkt).rspOut = s.rspOut := rfl

@[simp] theorem State.decGoto_crcAcc (d : DecState) : (s.decGoto d).crcAcc = s.crcAcc := rfl
@[simp] theorem State.decGoto_encBuf (d : DecState) : (s.decGoto d).encBuf = s.encBuf := rfl
@[simp] theorem State.decGoto_encLen (d : DecState) : (s.decGoto d).encLen = s.encLen := rfl
@[simp] theorem State.decGoto_encOvf (d : DecState) : (s.decGoto d).encOvf = s.encOvf := rfl
@[simp] theorem State.decGoto_pktBuf (d : DecState) : (s.decGoto d).pktBuf = s.pktBuf := rfl
@[simp] theorem State.decGoto_pktLen (d : DecState) : (s.decGoto d).pktLen = s.pktLen := rfl
@[simp] theorem State.decGoto_pktOvf (d : DecState) : (s.decGoto d).pktOvf = s.pktOvf := rfl
@[simp] theorem State.decGoto_decState (d : DecState) : (s.decGoto d).decState = d := rfl
@[simp] theorem State.decGoto_decExpLen (d : DecState) : (s.decGoto d).decExpLen = s.decExpLen := rfl
@[simp] theorem State.decGoto_decBuf (d : DecState) : (s.decGoto d).decBuf = s.decBuf := rfl
@[simp] theorem State.decGoto_decCnt (d : DecState) : (s.decGoto d).decCnt = s.decCnt := rfl
@[simp] theorem State.decGoto_cmdIn (d : DecState) : (s.decGoto d).cmdIn = s.cmdIn := rfl
@[simp] theorem State.decGoto_rspOut (d : DecState) : (s.decGoto d).rspOut = s.rspOut ++ [rspWord .ok (decStateByte d)] := rfl

@[simp] theorem State.resetBlock_crcAcc : (s.resetBlock).crcAcc = 0x00 := rfl
@[simp] theorem State.resetBlock_encBuf : (s.resetBlock).encBuf = s.encBuf := rfl
@[simp] theorem State.resetBlock_encLen : (s.resetBlock).encLen = 0 := rfl
@[simp] theorem State.resetBlock_encOvf : (s.resetBlock).encOvf = false := rfl
@[simp] theorem State.resetBlock_pktBuf : (s.resetBlock).pktBuf = s.pktBuf := rfl
@[simp] theorem State.resetBlock_pktLen : (s.resetBlock).pktLen = 0 := rfl
@[simp] theorem State.resetBlock_pktOvf : (s.resetBlock).pktOvf = false := rfl
@[simp] theorem State.resetBlock_decState : (s.resetBlock).decState = .awaitingHeader := rfl
@[simp] theorem State.resetBlock_decExpLen : (s.resetBlock).decExpLen = 0 := rfl
@[simp] theorem State.resetBlock_decBuf : (s.resetBlock).decBuf = s.decBuf := rfl
@[simp] theorem State.resetBlock_decCnt : (s.resetBlock).decCnt = 0 := rfl
@[simp] theorem State.resetBlock_cmdIn : (s.resetBlock).cmdIn = s.cmdIn := rfl
@[simp] theorem State.resetBlock_rspOut : (s.resetBlock).rspOut = s.rspOut := rfl

@[simp] theorem State.offer_crcAcc (w : CmdWord) : (s.offer w).crcAcc = s.crcAcc := rfl
@[simp] theorem State.offer_encBuf (w : CmdWord) : (s.offer w).encBuf = s.encBuf := rfl
@[simp] theorem State.offer_encLen (w : CmdWord) : (s.offer w).encLen = s.encLen := rfl
@[simp] theorem State.offer_encOvf (w : CmdWord) : (s.offer w).encOvf = s.encOvf := rfl
@[simp] theorem State.offer_pktBuf (w : CmdWord) : (s.offer w).pktBuf = s.pktBuf := rfl
@[simp] theorem State.offer_pktLen (w : CmdWord) : (s.offer w).pktLen = s.pktLen := rfl
@[simp] theorem State.offer_pktOvf (w : CmdWord) : (s.offer w).pktOvf = s.pktOvf := rfl
@[simp] theorem State.offer_decState (w : CmdWord) : (s.offer w).decState = s.decState := rfl
@[simp] theorem State.offer_decExpLen (w : CmdWord) : (s.offer w).decExpLen = s.decExpLen := rfl
@[simp] theorem State.offer_decBuf (w : CmdWord) : (s.offer w).decBuf = s.decBuf := rfl
@[simp] theorem State.offer_decCnt (w : CmdWord) : (s.offer w).decCnt = s.decCnt := rfl
@[simp] theorem State.offer_cmdIn (w : CmdWord) : (s.offer w).cmdIn = w :: s.cmdIn := rfl
@[simp] theorem State.offer_rspOut (w : CmdWord) : (s.offer w).rspOut = s.rspOut := rfl

end Sys2Proof.Machine
end

