-- ==== Sys2Proof/Laws/Ops.lean ====
section
/-! SUPPORT. What the shared operations do, said once: the response word, the legality guard, the effect of a command, and
sequences of commands. Later proofs cite these and unfold no meaning. -/

namespace Sys2Proof.Machine

/-! ### The response word -/

theorem rspWord_fields (st : Status) (d : Byte) :
    (rspWord st d).extractLsb' 12 4 = 0 ∧ (rspWord st d).extractLsb' 8 4 = statusCode st ∧
    (rspWord st d).extractLsb' 0 8 = d := by
  cases st <;> revert d <;> decide

theorem statusCode_injective : Function.Injective statusCode := by
  intro a b
  cases a <;> cases b <;> decide

/-- A response word says one status and one data byte. -/
theorem rspWord_inj {st st' : Status} {d d' : Byte} : rspWord st d = rspWord st' d' ↔ st = st' ∧ d = d' := by
  constructor
  · intro h
    have hf := rspWord_fields st d
    rw [h] at hf
    obtain ⟨-, hs, hd⟩ := rspWord_fields st' d'
    exact ⟨statusCode_injective (hf.2.1.symm.trans hs), hf.2.2.symm.trans hd⟩
  · rintro ⟨rfl, rfl⟩
    rfl

/-- What a command answered is determined by the states before and after. -/
theorem Answers.unique {s t : State} {st st' : Status} {d d' : Byte} (h : Answers s t st d) (h' : Answers s t st' d') :
    st = st' ∧ d = d' := by
  have := h.1.symm.trans h'.1
  exact rspWord_inj.1 (by simpa using this)

/-! ### The legality guard -/

theorem onLegal_of_legal {s : State} (t : State) (h : s.Legal) : onLegal s t = .next t := if_pos h

theorem onLegal_of_not_legal {s : State} (t : State) (h : ¬ s.Legal) : onLegal s t = .refused .unreachableState := if_neg h

/-- The guard answers a next state only in a legal state, and then the given one. -/
theorem onLegal_next {s t u : State} (h : onLegal s t = .next u) : s.Legal ∧ u = t := by
  unfold onLegal at h
  split at h
  · next hs => exact ⟨hs, (Host.Outcome.next.inj h).symm⟩
  · cases h

/-! ### The effect of a command in a legal state -/

/-- The next state of each command, without the guard. -/
def effect (i : Instr) (s : State) : State :=
  match i with
  | .crcInit => State.respond { s with crcAcc := hw.crcSeed } .ok 0x00
  | .crcUpd b => State.respond { s with crcAcc := crcStep s.crcAcc b } .ok (crcStep s.crcAcc b)
  | .crcRd => s.respond .ok s.crcAcc
  | .encInit => s.clearEnc.respond .ok 0x00
  | .encPut b => if s.EncHasRoom then (s.encAppend b).respond .ok 0x00 else s.setEncOvf.respondErr .lengthErr
  | .encLen => if s.encOvf = true then s.respondErr .lengthErr else s.respond .ok (lenByte (s.encLen.toNat + 3))
  | .encRd n =>
    if s.encOvf = true then s.respondErr .lengthErr
    else if n > s.encLen.toNat + 2 then s.respondErr .rangeErr
    else s.respond .ok (encPacketByte s n)
  | .pktInit => s.clearPkt.respond .ok 0x00
  | .pktPut b => (if s.PktHasRoom then s.pktAppend b else s.setPktOvf).respond .ok 0x00
  | .pktChk => if pktVerdict s = .ok then s.respond .ok (lenByte (s.pktLen.toNat - 3)) else s.respondErr (pktVerdict s)
  | .pktRd n =>
    if pktVerdict s ≠ .ok then s.respondErr (pktVerdict s)
    else if n ≥ s.pktLen.toNat - 3 then s.respondErr .rangeErr
    else s.respond .ok (s.pktBuf.read (pktReadIndex n))
  | .decInit => State.respond { s with decState := .awaitingHeader, decExpLen := 0, decCnt := 0 } .ok 0x00
  | .decPush b =>
    match s.decState with
    | .awaitingHeader => decPushHeader b s
    | .awaitingLength => decPushLength b s
    | .awaitingData => decPushData b s
    | .awaitingCrc => decPushCrc b s
    | .ready => decPushReady s
  | .decStat => s.respond .ok (decStateByte s.decState)
  | .decLen => s.respond .ok (lenByte s.decCnt.toNat)
  | .decRd n =>
    if s.decState ≠ .ready then s.respondErr .stateErr
    else if n ≥ s.decCnt.toNat then s.respondErr .rangeErr
    else s.respond .ok (s.decBuf.read (decReadIndex n))

/-- Executing a command is its effect behind the guard. -/
theorem exec_eq_onLegal (i : Instr) (s : State) : exec i s = onLegal s (effect i s) := by cases i <;> rfl

theorem exec_of_legal (i : Instr) {s : State} (h : s.Legal) : exec i s = .next (effect i s) := by
  rw [exec_eq_onLegal, onLegal_of_legal _ h]

/-- If a command answers a next state, the state was legal and the next one is the effect. -/
theorem exec_next {i : Instr} {s t : State} (h : exec i s = .next t) : s.Legal ∧ t = effect i s :=
  onLegal_next (exec_eq_onLegal i s ▸ h)

/-- A command only answers exactly when its effect is the response and nothing else. -/
theorem onlyAnswers_iff {i : Instr} {s : State} {st : Status} {d : Byte} (h : s.Legal) :
    OnlyAnswers i s st d ↔ effect i s = s.respond st d := by
  unfold OnlyAnswers
  rw [exec_of_legal i h]
  exact ⟨Host.Outcome.next.inj, congrArg _⟩

/-- A reserved word in a legal state. -/
theorem execReserved_of_legal {s : State} (h : s.Legal) : execReserved s = .next (s.respondErr .illegalCmd) :=
  onLegal_of_legal _ h

/-- What a transaction can do: run the decoded command, or answer a reserved word; only in a legal state. -/
theorem transact_next {w : CmdWord} {s t : State} (h : transact w s = .next t) :
    s.Legal ∧ ((∃ i, decode w = .ok i ∧ t = effect i s) ∨ (∃ e, decode w = .error e) ∧ t = s.respondErr .illegalCmd) := by
  unfold transact at h
  split at h
  · next i hi => exact ⟨(exec_next h).1, .inl ⟨i, hi, (exec_next h).2⟩⟩
  · next e he => exact ⟨(onLegal_next h).1, .inr ⟨⟨e, he⟩, (onLegal_next h).2⟩⟩

/-- What a step can do: hold the state when no word is offered, or take the next word and make its transaction. -/
theorem step_next {s t : State} (h : step s = .next t) :
    (s.cmdIn = [] ∧ t = s) ∨ ∃ w ws, s.cmdIn = w :: ws ∧ transact w { s with cmdIn := ws } = .next t := by
  unfold step stepCommand at h
  split at h
  · next hs => exact .inl ⟨hs, (Host.Outcome.next.inj h).symm⟩
  · next w ws hs => exact .inr ⟨w, ws, hs, h⟩

/-! ### Sequences of commands -/

@[simp] theorem execAll_nil (s : State) : execAll [] s = .next s := rfl

/-- A sequence completes when its first command does and the rest does after it. -/
theorem execAll_cons_next {i : Instr} {is : List Instr} {s u : State} :
    execAll (i :: is) s = .next u ↔ ∃ t, exec i s = .next t ∧ execAll is t = .next u := by
  simp only [execAll]
  cases h : exec i s with
  | next t => simp
  | fault r => cases r
  | refused r => simp

/-- A sequence can be cut anywhere. -/
theorem execAll_append_next {is js : List Instr} {s u : State} :
    execAll (is ++ js) s = .next u ↔ ∃ t, execAll is s = .next t ∧ execAll js t = .next u := by
  induction is generalizing s with
  | nil => simp
  | cons i is ih =>
    simp only [List.cons_append, execAll_cons_next, ih]
    constructor
    · rintro ⟨t, ht, v, hv, hu⟩
      exact ⟨v, ⟨t, ht, hv⟩, hu⟩
    · rintro ⟨v, ⟨t, ht, hv⟩, hu⟩
      exact ⟨t, ht, v, hv, hu⟩

/-- The same for sequences of command words. -/
theorem transactAll_cons_next {w : CmdWord} {ws : List CmdWord} {s u : State} :
    transactAll (w :: ws) s = .next u ↔ ∃ t, transact w s = .next t ∧ transactAll ws t = .next u := by
  simp only [transactAll]
  cases h : transact w s with
  | next t => simp
  | fault r => cases r
  | refused r => simp

end Sys2Proof.Machine
end

