-- ==== Sys2Proof/Laws/Params.lean ====
section
/-! SUPPORT. The constants of this hardware as numbers, so that proofs do not unfold the configuration. -/

namespace Sys2Proof.Machine

@[simp] theorem hw_header : hw.header = 0xD5 := by rfl
@[simp] theorem hw_maxPayload : hw.maxPayload = 32 := by rfl
@[simp] theorem hw_minPacket : hw.minPacket = 4 := by rfl
@[simp] theorem hw_pktCap : hw.pktCap = 258 := by rfl
@[simp] theorem hw_crcSeed : hw.crcSeed = 0x00 := by rfl
@[simp] theorem encCap_eq : encCap = 32 := by rfl
@[simp] theorem pktCap_eq : pktCap = 258 := by rfl

@[simp] theorem crcFold_nil (a : Byte) : crcFold a [] = a := rfl
@[simp] theorem crcFold_cons (a b : Byte) (s : List Byte) : crcFold a (b :: s) = crcFold (crcStep a b) s := rfl
theorem crcFold_append (a : Byte) (s t : List Byte) : crcFold a (s ++ t) = crcFold (crcFold a s) t :=
  List.foldl_append

/-- `crc8` of a sequence one byte longer. -/
theorem crc8_snoc (s : List Byte) (b : Byte) : crc8 (s ++ [b]) = crcStep (crc8 s) b := crcFold_append _ _ _

/-- `encode` with its numbers (R120). -/
theorem encodePacket_eq (p : List Byte) :
    encodePacket p =
      if 32 < p.length then .error .lengthErr else .ok (0xD5 :: BitVec.ofNat 8 p.length :: (p ++ [crc8 p])) := rfl

/-- `decode` with its numbers (R140). -/
theorem decodePacket_eq (k : List Byte) :
    decodePacket k =
      if k.length < 4 then .error .lengthErr
      else if k.getD 0 0 = 0xD5 then
        if (k.getD 1 0).toNat = k.length - 3 then
          if k.getD (k.length - 1) 0 = crc8 (seqSlice k 2 (k.length - 1)) then .ok (seqSlice k 2 (k.length - 1))
          else .error .crcErr
        else .error .lengthFieldErr
      else .error .headerErr := by
  simp only [decodePacket, hw_minPacket, hw_header, ne_eq, ite_not]

/-- The verdict with its numbers (R143). -/
theorem pktVerdict_eq (s : State) :
    pktVerdict s =
      if s.pktOvf = false ∧ s.pktLen.toNat < 4 then .lengthErr
      else if s.pktBuf.read 0 = 0xD5 then
        if s.pktOvf = true ∨ (s.pktBuf.read 1).toNat ≠ s.pktLen.toNat - 3 then .lengthFieldErr
        else if s.pktBuf.read (s.pktLen.toNat - 1) = crc8 s.pktPayload then .ok
        else .crcErr
      else .headerErr := by
  simp only [pktVerdict, hw_minPacket, hw_header, ne_eq, ite_not]

end Sys2Proof.Machine
end

