-- ==== Sys2Proof/Laws/PerInstr.lean ====
section
/-! SUPPORT. Per-instruction facts about the syntax. Family `Opcode`: the encoder gives each command an opcode of spec R74. -/

namespace Sys2Proof.Laws.Opcode

/-- The opcode byte of the encoding is one of the sixteen of R74. -/
def Statement (i : Instr) : Prop := cmdOpcode (encode i) ∈ Machine.commandOpcodes

theorem crcInit : Statement .crcInit := by simp [Statement, encode, Machine.commandOpcodes]
theorem crcUpd (b : Byte) : Statement (.crcUpd b) := by simp [Statement, encode, Machine.commandOpcodes]
theorem crcRd : Statement .crcRd := by simp [Statement, encode, Machine.commandOpcodes]
theorem encInit : Statement .encInit := by simp [Statement, encode, Machine.commandOpcodes]
theorem encPut (b : Byte) : Statement (.encPut b) := by simp [Statement, encode, Machine.commandOpcodes]
theorem encLen : Statement .encLen := by simp [Statement, encode, Machine.commandOpcodes]
theorem encRd (i : Nat) : Statement (.encRd i) := by simp [Statement, encode, Machine.commandOpcodes]
theorem pktInit : Statement .pktInit := by simp [Statement, encode, Machine.commandOpcodes]
theorem pktPut (b : Byte) : Statement (.pktPut b) := by simp [Statement, encode, Machine.commandOpcodes]
theorem pktChk : Statement .pktChk := by simp [Statement, encode, Machine.commandOpcodes]
theorem pktRd (i : Nat) : Statement (.pktRd i) := by simp [Statement, encode, Machine.commandOpcodes]
theorem decInit : Statement .decInit := by simp [Statement, encode, Machine.commandOpcodes]
theorem decPush (b : Byte) : Statement (.decPush b) := by simp [Statement, encode, Machine.commandOpcodes]
theorem decStat : Statement .decStat := by simp [Statement, encode, Machine.commandOpcodes]
theorem decLen : Statement .decLen := by simp [Statement, encode, Machine.commandOpcodes]
theorem decRd (i : Nat) : Statement (.decRd i) := by simp [Statement, encode, Machine.commandOpcodes]

end Sys2Proof.Laws.Opcode
end

