-- ==== Sys2Proof/Laws/Units.lean ====
section
/-! SUPPORT. What each unit's commands do to the state, said once per unit: the frame of the other units, the response, and
that the effect of a command keeps R35's invariants. -/

namespace Sys2Proof.Machine

/-! ### Counters do not wrap while they have room (R15 c) -/

theorem encLen_succ {s : State} (h : s.encLen.toNat < 32) : (s.encLen + 1).toNat = s.encLen.toNat + 1 := by bv_omega
theorem pktLen_succ {s : State} (h : s.pktLen.toNat < 258) : (s.pktLen + 1).toNat = s.pktLen.toNat + 1 := by bv_omega
theorem decCnt_succ {s : State} (h : s.decCnt.toNat < 32) : (s.decCnt + 1).toNat = s.decCnt.toNat + 1 := by bv_omega

/-! ### The five arms of DEC.PUSH: each either moves the decoder and answers OK, or only answers an error -/

theorem decPushHeader_cases (b : Byte) (s : State) :
    (b = 0xD5 ∧ decPushHeader b s = s.decGoto .awaitingLength) ∨ (b ≠ 0xD5 ∧ decPushHeader b s = s.respondErr .headerErr) := by
  unfold decPushHeader
  rw [hw_header]
  split <;> simp_all

theorem decPushLength_cases (b : Byte) (s : State) :
    (b = 0 ∧ decPushLength b s = State.decGoto { s with decExpLen := 0 } .awaitingCrc) ∨
    (1 ≤ b.toNat ∧ b.toNat ≤ 32 ∧ decPushLength b s = State.decGoto { s with decExpLen := b.setWidth 6 } .awaitingData) ∨
    (32 < b.toNat ∧ decPushLength b s = s.respondErr .lengthFieldErr) := by
  unfold decPushLength
  rw [hw_maxPayload]
  by_cases h0 : b = 0
  · subst h0
    exact .inl ⟨rfl, rfl⟩
  · have hb : 1 ≤ b.toNat := by
      have : b.toNat ≠ 0 := fun h => h0 (BitVec.eq_of_toNat_eq (by simpa using h))
      omega
    by_cases h : b.toNat ≤ 32
    · exact .inr (.inl ⟨hb, h, by rw [if_pos h, if_neg h0]⟩)
    · exact .inr (.inr ⟨by omega, by simp [h]⟩)

/-- A length byte that is accepted fits the six bits of `DEC_EXPLEN`. -/
theorem setWidth_six_toNat {b : Byte} (h : b.toNat ≤ 32) : (b.setWidth 6).toNat = b.toNat := by
  simp only [BitVec.toNat_setWidth]
  omega

theorem decPushData_cases (b : Byte) (s : State) :
    (s.decCnt + 1 = s.decExpLen ∧ decPushData b s = (s.decAppend b).decGoto .awaitingCrc) ∨
    (s.decCnt + 1 ≠ s.decExpLen ∧ decPushData b s = (s.decAppend b).decGoto .awaitingData) := by
  by_cases h : (s.decAppend b).decCnt = (s.decAppend b).decExpLen
  · exact .inl ⟨h, by dsimp only [decPushData]; rw [if_pos h]⟩
  · exact .inr ⟨h, by dsimp only [decPushData]; rw [if_neg h]⟩

theorem decPushCrc_cases (b : Byte) (s : State) :
    (b = crc8 s.decPayload ∧ decPushCrc b s = s.decGoto .ready) ∨
    (b ≠ crc8 s.decPayload ∧ decPushCrc b s = s.respondErr .crcErr) := by
  unfold decPushCrc
  split <;> simp_all

/-! ### The response -/

/-- What an effect can be: a success from a state that differs at most in registers and buffers; an error that changes
nothing; or the ENC.PUT that overflows. -/
theorem effect_cases (i : Instr) (s : State) :
    (∃ t d, effect i s = State.respond t .ok d ∧ t.rspOut = s.rspOut ∧ t.cmdIn = s.cmdIn) ∨
    (∃ st, st ≠ .ok ∧ effect i s = s.respondErr st) ∨
    (∃ b, i = .encPut b ∧ ¬ s.EncHasRoom ∧ effect i s = s.setEncOvf.respondErr .lengthErr) := by
  cases i with
  | encPut b =>
    by_cases h : s.EncHasRoom
    · exact .inl ⟨_, _, if_pos h, rfl, rfl⟩
    · exact .inr (.inr ⟨b, rfl, h, if_neg h⟩)
  | pktPut b =>
    refine .inl ⟨_, _, rfl, ?_, ?_⟩ <;> split <;> rfl
  | decPush b =>
    simp only [effect]
    split
    · obtain ⟨-, h⟩ | ⟨-, h⟩ := decPushHeader_cases b s
      exacts [.inl ⟨_, _, h, rfl, rfl⟩, .inr (.inl ⟨_, by decide, h⟩)]
    · obtain ⟨-, h⟩ | ⟨-, -, h⟩ | ⟨-, h⟩ := decPushLength_cases b s
      exacts [.inl ⟨_, _, h, rfl, rfl⟩, .inl ⟨_, _, h, rfl, rfl⟩, .inr (.inl ⟨_, by decide, h⟩)]
    · exact .inl ⟨_, _, rfl, rfl, rfl⟩
    · obtain ⟨-, h⟩ | ⟨-, h⟩ := decPushCrc_cases b s
      exacts [.inl ⟨_, _, h, rfl, rfl⟩, .inr (.inl ⟨_, by decide, h⟩)]
    · exact .inr (.inl ⟨_, by decide, rfl⟩)
  | pktChk =>
    by_cases h : pktVerdict s = .ok
    · exact .inl ⟨_, _, if_pos h, rfl, rfl⟩
    · exact .inr (.inl ⟨_, h, if_neg h⟩)
  | pktRd n =>
    by_cases h : pktVerdict s = .ok
    · simp only [effect, h, ne_eq, not_true_eq_false, if_false]
      split
      exacts [.inr (.inl ⟨_, by decide, rfl⟩), .inl ⟨_, _, rfl, rfl, rfl⟩]
    · exact .inr (.inl ⟨_, h, if_pos h⟩)
  | _ =>
    simp only [effect]
    (repeat' split) <;> first | exact .inl ⟨_, _, rfl, rfl, rfl⟩ | exact .inr (.inl ⟨_, by decide, rfl⟩)

/-- Every effect gives one response word, and an error's data is 0x00. -/
theorem effect_answers (i : Instr) (s : State) : ∃ st d, Answers s (effect i s) st d ∧ (st ≠ .ok → d = 0x00) := by
  obtain ⟨t, d, h, hr, hc⟩ | ⟨st, -, h⟩ | ⟨b, -, -, h⟩ := effect_cases i s <;> rw [h]
  · exact ⟨.ok, d, ⟨by simp [hr], by simp [hc]⟩, fun h => absurd rfl h⟩
  · exact ⟨st, 0x00, ⟨rfl, rfl⟩, fun _ => rfl⟩
  · exact ⟨.lengthErr, 0x00, ⟨rfl, rfl⟩, fun _ => rfl⟩

/-! ### The frame of the other units -/

/-- Every effect leaves the other units' items alone. -/
theorem effect_other_unit (i : Instr) (s : State) {u : UnitName} (h : u ≠ i.unit) : SameUnit u s (effect i s) := by
  cases i with
  | decPush b =>
    have hdec : effect (.decPush b) s = { effect (.decPush b) s with
        crcAcc := s.crcAcc, encBuf := s.encBuf, encLen := s.encLen, encOvf := s.encOvf
        pktBuf := s.pktBuf, pktLen := s.pktLen, pktOvf := s.pktOvf } := by
      simp only [effect]
      split
      · obtain ⟨-, h⟩ | ⟨-, h⟩ := decPushHeader_cases b s <;> rw [h] <;> rfl
      · obtain ⟨-, h⟩ | ⟨-, -, h⟩ | ⟨-, h⟩ := decPushLength_cases b s <;> rw [h] <;> rfl
      · rfl
      · obtain ⟨-, h⟩ | ⟨-, h⟩ := decPushCrc_cases b s <;> rw [h] <;> rfl
      · rfl
    rw [hdec]
    cases u <;> first | exact absurd rfl h | simp [SameUnit, SameCrc, SameEnc, SamePkt]
  | _ =>
    cases u <;> first
      | exact absurd rfl h
      | (simp only [SameUnit, SameCrc, SameEnc, SamePkt, SameDec, effect]; (repeat' split) <;> simp)

/-! ### The invariants of R35 -/

theorem effect_encLegal (i : Instr) {s : State} (h : s.EncLegal) : (effect i s).EncLegal := by
  by_cases hu : i.unit = .enc
  · cases i <;> simp only [Instr.unit, reduceCtorEq] at hu <;> simp only [effect]
    · simp [State.EncLegal]
    · split
      · next hr =>
        have hr' : s.encLen.toNat < 32 := hr.2
        simp only [State.EncLegal, State.respond_encLen, State.encAppend_encLen, State.respond_encOvf,
          State.encAppend_encOvf, encLen_succ hr', hr.1, hw_maxPayload]
        exact ⟨hr', fun ho => nomatch ho⟩
      · next hr =>
        simp only [State.EncLegal, State.EncHasRoom, hw_maxPayload, encCap_eq] at h hr
        have : s.encLen.toNat = 32 := by
          cases ho : s.encOvf
          · have hge : ¬ s.encLen.toNat < 32 := fun h' => hr ⟨ho, h'⟩
            have := h.1
            omega
          · exact h.2 ho
        simp [State.EncLegal, this]
    · split <;> exact h
    · (repeat' split) <;> exact h
  · obtain ⟨-, h1, h2⟩ := effect_other_unit i s (u := .enc) (Ne.symm hu)
    simpa [State.EncLegal, h1, h2] using h

theorem effect_pktLegal (i : Instr) {s : State} (h : s.PktLegal) : (effect i s).PktLegal := by
  by_cases hu : i.unit = .pkt
  · cases i <;> simp only [Instr.unit, reduceCtorEq] at hu <;> simp only [effect]
    · simp [State.PktLegal]
    · split
      · next hr =>
        have hr' : s.pktLen.toNat < 258 := hr
        simp only [State.PktLegal, hw_pktCap] at h
        simp only [State.PktLegal, State.respond_pktLen, State.pktAppend_pktLen, State.respond_pktOvf,
          State.pktAppend_pktOvf, pktLen_succ hr', hw_pktCap]
        exact ⟨by omega, fun ho => by have := h.2 ho; omega⟩
      · next hr =>
        simp only [State.PktLegal, State.PktHasRoom, hw_pktCap, pktCap_eq] at h hr
        simp [State.PktLegal]
        omega
    · split <;> exact h
    · (repeat' split) <;> exact h
  · obtain ⟨-, h1, h2⟩ := effect_other_unit i s (u := .pkt) (Ne.symm hu)
    simpa [State.PktLegal, h1, h2] using h

theorem effect_decLegal (i : Instr) {s : State} (h : s.DecLegal) : (effect i s).DecLegal := by
  by_cases hu : i.unit = .dec
  · cases i <;> simp only [Instr.unit, reduceCtorEq] at hu <;> simp only [effect]
    · simp [State.DecLegal]
    · next b =>
      obtain ⟨he, hc, h01, h2, h34⟩ := h
      split
      · next hs =>
        obtain ⟨-, h⟩ | ⟨-, h⟩ := decPushHeader_cases b s <;> rw [h]
        · simp [State.DecLegal, h01 (.inl hs)]
        · simp [State.DecLegal, h01 (.inl hs), hs]
      · next hs =>
        obtain ⟨-, h⟩ | ⟨hb, hb', h⟩ | ⟨-, h⟩ := decPushLength_cases b s <;> rw [h]
        · simp [State.DecLegal, h01 (.inr hs)]
        · simp [State.DecLegal, h01 (.inr hs)]
          omega
        · simp [State.DecLegal, h01 (.inr hs), hs]
      · next hs =>
        have hlt := h2 hs
        have he32 : s.decExpLen.toNat ≤ 32 := he
        have hsucc := decCnt_succ (s := s) (by omega)
        obtain ⟨heq, h⟩ | ⟨hne, h⟩ := decPushData_cases b s <;> rw [h]
        · have := congrArg BitVec.toNat heq
          simp only [State.DecLegal, State.decGoto_decState, State.decGoto_decExpLen, State.decGoto_decCnt,
            State.decAppend_decCnt, State.decAppend_decExpLen, hsucc, hw_maxPayload]
          exact ⟨he32, by omega, fun h => by simp at h, fun h => by simp at h, fun _ => heq⟩
        · have : (s.decCnt + 1).toNat ≠ s.decExpLen.toNat := fun h => hne (BitVec.eq_of_toNat_eq h)
          simp only [State.DecLegal, State.decGoto_decState, State.decGoto_decExpLen, State.decGoto_decCnt,
            State.decAppend_decCnt, State.decAppend_decExpLen, hsucc, hw_maxPayload]
          exact ⟨he32, by omega, fun h => by simp at h, fun _ => by omega, fun h => by simp at h⟩
      · next hs =>
        obtain ⟨-, h⟩ | ⟨-, h⟩ := decPushCrc_cases b s <;> rw [h]
        · have := h34 (.inl hs)
          simpa [State.DecLegal, this] using he
        · exact ⟨he, hc, h01, h2, h34⟩
      · exact ⟨he, hc, h01, h2, h34⟩
    · exact h
    · exact h
    · (repeat' split) <;> exact h
  · obtain ⟨-, h1, h2, h3⟩ := effect_other_unit i s (u := .dec) (Ne.symm hu)
    simpa [State.DecLegal, h1, h2, h3] using h

/-- Every effect keeps R35's invariants. -/
theorem effect_legal (i : Instr) {s : State} (h : s.Legal) : (effect i s).Legal :=
  ⟨effect_encLegal i h.1, effect_pktLegal i h.2.1, effect_decLegal i h.2.2⟩

/-- In a legal state every sequence of commands completes, in a legal state. -/
theorem execAll_of_legal (is : List Instr) {s : State} (h : s.Legal) : ∃ t, execAll is s = .next t ∧ t.Legal := by
  induction is generalizing s with
  | nil => exact ⟨s, rfl, h⟩
  | cons i is ih =>
    obtain ⟨t, ht, hl⟩ := ih (effect_legal i h)
    exact ⟨t, execAll_cons_next.2 ⟨_, exec_of_legal i h, ht⟩, hl⟩

end Sys2Proof.Machine
end

