-- ==== Sys2Proof/Tests/Slice0.lean ====
section
/-! SUPPORT. The model's own tests: the well-formedness smoke, decoding of words written out from spec R70 and R74, one-step
tests whose expected values are the vectors of spec/95_test_vectors.md (V-..), and for every obligation with hypotheses a
witness that meets them. -/

namespace Sys2Proof.Tests

open Sys2Proof.Machine

/-! ### Helpers -/

/-- A buffer that holds these bytes from index 0 on. -/
def holding (bs : List Byte) : Memory := (bs.zipIdx.map fun c => (c.2, c.1)).filter fun c => c.2 != 0x00

/-- The framer holding this payload. -/
def framing (bs : List Byte) (ovf : Bool := false) : State :=
  { State.reset with encBuf := holding bs, encLen := BitVec.ofNat 6 bs.length, encOvf := ovf }

/-- The deframer holding this packet. -/
def deframing (bs : List Byte) (ovf : Bool := false) : State :=
  { State.reset with pktBuf := holding bs, pktLen := BitVec.ofNat 9 bs.length, pktOvf := ovf }

/-- The stream decoder in this state, with this announced length and these payload bytes. -/
def decoding (d : DecState) (expLen : Nat) (bs : List Byte) : State :=
  { State.reset with decState := d, decExpLen := BitVec.ofNat 6 expLen, decBuf := holding bs, decCnt := BitVec.ofNat 6 bs.length }

/-- The response word a command gives, from a legal state. -/
def rsp (i : Instr) (s : State) : Option RspWord :=
  match exec i s with
  | .next t => t.rspOut.getLast?
  | .fault _ | .refused _ => none

/-- The response to the last of some command words, from reset. -/
def rspWords (ws : List CmdWord) : Option RspWord :=
  match transactAll ws State.reset with
  | .next t => t.rspOut.getLast?
  | .fault _ | .refused _ => none

/-- The outcome is this next state. -/
def nextIs (o : Host.Outcome State Fault Refusal) (t : State) : Bool :=
  match o with
  | .next u => u == t
  | .fault _ | .refused _ => false

theorem next_of_nextIs {o : Host.Outcome State Fault Refusal} {t : State} (h : nextIs o t = true) : o = .next t := by
  cases o with
  | next u => exact congrArg _ (by simpa [nextIs] using h)
  | fault r => cases r
  | refused r => simp [nextIs] at h

/-- `n` bytes, 00 01 02 ... -/
def counting (n : Nat) : List Byte := (List.range n).map (BitVec.ofNat 8)

/-! ### Well-formedness: an index above 255 is refused, one at the bound is not -/

theorem test_wf_encRd : Instr.wf (.encRd 256) = false ∧ Instr.wf (.encRd 255) = true := by decide
theorem test_wf_pktRd : Instr.wf (.pktRd 256) = false ∧ Instr.wf (.pktRd 255) = true := by decide
theorem test_wf_decRd : Instr.wf (.decRd 256) = false ∧ Instr.wf (.decRd 255) = true := by decide

/-! ### Decoding: words written out from R70 and R74, unit, function, operand -/

theorem test_decode_crcInit : decode 0b0000_0000_00000000 = .ok .crcInit := by decide
theorem test_decode_crcUpd : decode 0b0000_0001_00110001 = .ok (.crcUpd 0x31) := by decide
theorem test_decode_crcRd : decode 0b0000_0010_10101011 = .ok .crcRd := by decide
theorem test_decode_encInit : decode 0b0001_0000_00000000 = .ok .encInit := by decide
theorem test_decode_encPut : decode 0b0001_0001_10000001 = .ok (.encPut 0x81) := by decide
theorem test_decode_encLen : decode 0b0001_0010_00000000 = .ok .encLen := by decide
theorem test_decode_encRd : decode 0b0001_0011_00000100 = .ok (.encRd 4) := by decide
theorem test_decode_pktInit : decode 0b0010_0000_00000000 = .ok .pktInit := by decide
theorem test_decode_pktPut : decode 0b0010_0001_11010101 = .ok (.pktPut 0xD5) := by decide
theorem test_decode_pktChk : decode 0b0010_0010_01111111 = .ok .pktChk := by decide
theorem test_decode_pktRd : decode 0b0010_0011_11111111 = .ok (.pktRd 255) := by decide
theorem test_decode_decInit : decode 0b0011_0000_00000000 = .ok .decInit := by decide
theorem test_decode_decPush : decode 0b0011_0001_11010101 = .ok (.decPush 0xD5) := by decide
theorem test_decode_decStat : decode 0b0011_0010_00000000 = .ok .decStat := by decide
theorem test_decode_decLen : decode 0b0011_0011_00000000 = .ok .decLen := by decide
theorem test_decode_decRd : decode 0b0011_0100_00000011 = .ok (.decRd 3) := by decide

/-- V-I1 to V-I5. -/
theorem test_decode_reserved :
    decode 0x4000 = .error (.unit 4) ∧ decode 0x0300 = .error (.func 0 3) ∧ decode 0x35FF = .error (.func 3 5) ∧
    decode 0xFFFF = .error (.unit 15) ∧ decode 0x1400 = .error (.func 1 4) ∧ decode 0x2400 = .error (.func 2 4) := by decide

theorem test_decodeTableWord :
    decodeTableWord 16 0x1304 = some (.encRd 4) ∧ decodeTableWord 16 0x35FF = none := by decide

/-! ### One step, values of spec/95_test_vectors.md -/

/-- The word offered is the one step runs: V-C5's first byte. -/
theorem test_step_withFetchWord :
    step (State.reset.withFetchWord 16 0x0131) =
      .next { State.reset with crcAcc := 0xE0, rspOut := [0x00E0] } := by
  exact next_of_nextIs (by decide +kernel)

/-- V-I1 to V-I5. -/
theorem test_reserved_answers :
    [0x4000, 0x0300, 0x35FF, 0xFFFF, 0x1400, 0x2400].map (fun w => rspWords [w]) = List.replicate 6 (some 0x0700) := by
  decide +kernel

/-- Section 2: CRC.INIT with operand FF behaves as 0x0000. -/
theorem test_crcInit : rspWords [0x0131, 0x00FF, 0x0200] = some 0x0000 := by decide +kernel
/-- P1, positions 2 and 9. -/
theorem test_crcUpd :
    rsp (.crcUpd 0x32) { State.reset with crcAcc := 0xE0 } = some 0x00EB ∧
    rsp (.crcUpd 0x39) { State.reset with crcAcc := 0x07 } = some 0x00A1 := by decide +kernel
/-- V-I6. -/
theorem test_crcRd : rspWords [0x0181, 0x02AB] = some 0x00D2 := by decide +kernel
/-- V-E5: after ENC.INIT, ENC.LEN answers 0x0003. -/
theorem test_encInit :
    (match exec .encInit (framing (counting 32) true) with
      | .next t => rsp .encLen t
      | .fault _ | .refused _ => none) = some 0x0003 := by
  decide +kernel

/-- V-E5 and V-E6: the 32nd byte fits, the 33rd does not. -/
theorem test_encPut :
    rsp (.encPut 0x1F) (framing (counting 31)) = some 0x0000 ∧
    rsp (.encPut 0x20) (framing (counting 32)) = some 0x0100 := by decide +kernel
/-- V-E6, V-E5. -/
theorem test_encLen :
    rsp .encLen (framing (counting 32)) = some 0x0023 ∧ rsp .encLen (framing (counting 32) true) = some 0x0100 := by
  decide +kernel
/-- V-E4, every byte and the index past the end. -/
theorem test_encRd_packet :
    (List.range 7).map (fun i => rsp (.encRd i) (framing [0x81, 0x64, 0x00])) =
      [some 0x00D5, some 0x0003, some 0x0081, some 0x0064, some 0x0000, some 0x00A8, some 0x0500] := by decide +kernel
/-- Section 3: LENGTH_ERR before RANGE_ERR. -/
theorem test_encRd_overflow : rsp (.encRd 0xFF) (framing (counting 32) true) = some 0x0100 := by decide +kernel
/-- V-D1. -/
theorem test_pktInit : rspWords [0x21D5, 0x2000, 0x2200] = some 0x0100 := by decide +kernel
/-- V-D19, V-D20: the 258th byte is stored, the 259th sets PKT_OVF and answers OK. -/
theorem test_pktPut :
    rsp (.pktPut 0xD1) { State.reset with pktLen := 257 } = some 0x0000 ∧
    exec (.pktPut 0x00) { State.reset with pktLen := 258 } =
      .next { State.reset with pktLen := 258, pktOvf := true, rspOut := [0x0000] } := by
  and_intros <;> first | decide +kernel | exact next_of_nextIs (by decide +kernel)

/-- V-D3, V-D5, V-D6, V-D8, V-D10, V-D11. -/
theorem test_pktChk :
    ([[0xD5, 0x00, 0x00], [0xD5, 0x00, 0x00, 0x00], [0xD5, 0x01, 0x81, 0xD2], [0xD4, 0x02, 0x81, 0xD3],
      [0xD5, 0x02, 0x81, 0xD3], [0xD5, 0x01, 0x81, 0xD3]].map fun k => rsp .pktChk (deframing k)) =
    [some 0x0100, some 0x0300, some 0x0001, some 0x0200, some 0x0300, some 0x0400] := by decide +kernel
/-- V-D6, V-D11. -/
theorem test_pktRd :
    rsp (.pktRd 0) (deframing [0xD5, 0x01, 0x81, 0xD2]) = some 0x0081 ∧
    rsp (.pktRd 1) (deframing [0xD5, 0x01, 0x81, 0xD2]) = some 0x0500 ∧
    rsp (.pktRd 0) (deframing [0xD5, 0x01, 0x81, 0xD3]) = some 0x0400 := by decide +kernel
/-- Section 5: DEC.INIT in the middle of V-X13 leaves a fresh decoder. -/
theorem test_decInit :
    exec .decInit (decoding .awaitingData 3 [0x81, 0x64]) =
      .next { decoding .awaitingHeader 0 [] with decBuf := [(0, 0x81), (1, 0x64)], rspOut := [0x0000] } := by
  exact next_of_nextIs (by decide +kernel)

/-- V-X4, V-X5, V-X6, V-X1 and V-X9, V-X10. -/
theorem test_decPush :
    rsp (.decPush 0xD4) (decoding .awaitingHeader 0 []) = some 0x0200 ∧
    rsp (.decPush 0x20) (decoding .awaitingLength 0 []) = some 0x0002 ∧
    rsp (.decPush 0x21) (decoding .awaitingLength 0 []) = some 0x0300 ∧
    rsp (.decPush 0xD2) (decoding .awaitingCrc 1 [0x81]) = some 0x0004 ∧
    rsp (.decPush 0xD3) (decoding .awaitingCrc 1 [0x81]) = some 0x0400 ∧
    rsp (.decPush 0xD5) (decoding .ready 1 [0x81]) = some 0x0600 := by decide +kernel
/-- V-X13 and V-X1: a data byte that leaves the payload short, and one that completes it. -/
theorem test_decPush_data :
    exec (.decPush 0x64) (decoding .awaitingData 3 [0x81]) =
      .next { decoding .awaitingData 3 [0x81, 0x64] with rspOut := [0x0002] } ∧
    exec (.decPush 0x81) (decoding .awaitingData 1 []) =
      .next { decoding .awaitingCrc 1 [0x81] with rspOut := [0x0003] } := by
  and_intros <;> first | decide +kernel | exact next_of_nextIs (by decide +kernel)

/-- P5, position 6. -/
theorem test_decStat : rsp .decStat (decoding .awaitingCrc 1 [0x81]) = some 0x0003 := by decide +kernel
/-- P3, position 9. -/
theorem test_decLen : rsp .decLen (decoding .ready 3 [0x81, 0x64, 0x00]) = some 0x0003 := by decide +kernel
/-- P3, positions 11 and 13; V-X9. -/
theorem test_decRd :
    rsp (.decRd 1) (decoding .ready 3 [0x81, 0x64, 0x00]) = some 0x0064 ∧
    rsp (.decRd 3) (decoding .ready 3 [0x81, 0x64, 0x00]) = some 0x0500 ∧
    rsp (.decRd 0) (decoding .awaitingCrc 1 [0x81]) = some 0x0600 := by decide +kernel

/-- R78: a comment, a blank line, and a decimal operand; a missing and a needless operand are refused. -/
theorem test_assemble :
    assemble "; a comment\n\nENC.RD 4 ; index\nPKT.CHK".toList = .ok [0x1304, 0x2200] ∧
    assembleLine "ENC.RD".toList = .error .missingOperand ∧
    assembleLine "PKT.CHK 1".toList = .error .unexpectedOperand ∧
    assembleLine "ENC.RD 256".toList = .error .badOperand := by decide +kernel

/-! ### Witnesses: a concrete state and operands that meet every hypothesis together, clause by clause -/

theorem witness_StepKeepsTheInvariant :
    BlockInv { framing [0x81] with cmdIn := [0x1164] } ∧
    step { framing [0x81] with cmdIn := [0x1164] } = .next { framing [0x81, 0x64] with rspOut := [0x0000] } := by
  refine ⟨⟨by decide, ?_⟩, next_of_nextIs (by decide +kernel)⟩
  unfold Canonical
  decide

/-- After one ENC.PUT the framer holds one byte: a reachable state that is not reset. -/
theorem reachable_framing : Reachable { framing [0x81] with cmdIn := [0x0200], rspOut := [0x0000] } :=
  Reachable.step (Reachable.reset [0x1181, 0x0200] [] [] []) (next_of_nextIs (by decide +kernel))

theorem witness_EveryReachableStateMeetsTheInvariants :
    Reachable { State.reset with decBuf := [(0, 0x81)] } ∧
    Reachable { framing [0x81] with cmdIn := [0x0200], rspOut := [0x0000] } :=
  ⟨Reachable.reset [] [] [] [(0, 0x81)], reachable_framing⟩

theorem witness_NoCommandWordEverStopsTheBlock :
    Reachable { framing [0x81] with cmdIn := [0x0200], rspOut := [0x0000] } := reachable_framing

/-- One pattern outside each relation of R35. -/
theorem witness_UnreachablePatternsAreRefused :
    ¬ State.Legal { State.reset with encLen := 33 } ∧ ¬ State.Legal (framing [0x81] true) ∧
    ¬ State.Legal { State.reset with pktLen := 259 } ∧ ¬ State.Legal (deframing [0xD5] true) ∧
    ¬ State.Legal (decoding .awaitingData 33 []) ∧ ¬ State.Legal (decoding .awaitingData 1 [0x81, 0x64]) ∧
    ¬ State.Legal (decoding .awaitingHeader 1 [0x81]) ∧ ¬ State.Legal (decoding .awaitingLength 1 [0x81]) ∧
    ¬ State.Legal (decoding .awaitingData 1 [0x81]) ∧
    ¬ State.Legal (decoding .awaitingCrc 2 [0x81]) ∧ ¬ State.Legal (decoding .ready 2 [0x81]) := by
  and_intros <;> decide +kernel

theorem witness_StepRunsTheDecodedCommand :
    State.reset.cmdIn = [] ∧
    ({ State.reset with cmdIn := [0x1304, 0x4000] }).cmdIn = 0x1304 :: [0x4000] ∧ decode 0x1304 = .ok (.encRd 4) ∧
    ({ State.reset with cmdIn := [0x4000] }).cmdIn = 0x4000 :: [] ∧ decode 0x4000 = .error (.unit 4) := by
  and_intros <;> decide +kernel

theorem witness_StepsTakeTheHostsWordsInOrder :
    transactAll [0x0181, 0x4000] { State.reset with cmdIn := [0x3000] } =
      .next { State.reset with crcAcc := 0xD2, cmdIn := [0x3000], rspOut := [0x00D2, 0x0700] } := by
  exact next_of_nextIs (by decide +kernel)

theorem witness_OperandsAreAssembledAsTheTableSays : Instr.operandUse .pktChk = .ignored := rfl

theorem witness_ReservedOpcodesAnswerIllegalCmd :
    cmdOpcode 0x34FF ∈ commandOpcodes ∧ cmdOpcode 0x35FF ∉ commandOpcodes ∧ State.Legal (framing [0x81]) := by decide

theorem witness_DecodeOfEncodeIsTheCommand : Instr.wf (.encRd 0) = true ∧ Instr.wf (.decRd 255) = true := by decide

theorem witness_EncodeOfDecodeIsTheWord :
    decode 0x23FF = .ok (.pktRd 255) ∧ Instr.operandUse (.pktRd 255) ≠ .ignored ∧ decode 0x2277 = .ok .pktChk := by decide

theorem witness_AssemblerReadsWhatItWrites : Instr.wf (.encRd 255) = true ∧ Instr.wf (.crcUpd 0xFF) = true := by decide

theorem witness_EveryResponseWordHasItsFields :
    State.Legal (framing (counting 32) true) ∧ decode 0x2181 = .ok (.pktPut 0x81) ∧ hasResult (.pktPut 0x81) = false := by
  decide

theorem witness_WhichCommandAnswersWhichStatus :
    exec .decStat State.reset = .next { State.reset with rspOut := [0x0000] } ∧
    Status.crcErr ∈ canAnswer (.decPush 0xD3) ∧
    (∃ e, decode 0x4000 = .error e) ∧ transact 0x4000 State.reset = .next { State.reset with rspOut := [0x0700] } :=
  ⟨next_of_nextIs (by decide +kernel), by decide, ⟨_, rfl⟩, next_of_nextIs (by decide +kernel)⟩

/-- The overflowing ENC.PUT, and an error of another unit. -/
theorem witness_ErrorsChangeNothingButEncOvf :
    (∃ t, exec (.encPut 0x20) (framing (counting 32)) = .next t ∧ Answers (framing (counting 32)) t .lengthErr 0x00) ∧
    (∃ t, exec .pktChk State.reset = .next t ∧ Answers State.reset t .lengthErr 0x00) ∧ Status.lengthErr ≠ .ok :=
  ⟨⟨{ framing (counting 32) true with rspOut := [0x0100] }, next_of_nextIs (by decide +kernel), rfl, rfl⟩,
   ⟨{ State.reset with rspOut := [0x0100] }, next_of_nextIs (by decide +kernel), rfl, rfl⟩, by decide⟩

/-- Two states alike in unit ENC and different in every other unit. -/
theorem witness_UnitsShareNoState :
    SameUnit .enc (framing [0x81]) { framing [0x81] with crcAcc := 0x07, pktLen := 4, decState := .awaitingLength } ∧
    State.Legal (framing [0x81]) ∧
    State.Legal { framing [0x81] with crcAcc := 0x07, pktLen := 4, decState := .awaitingLength } ∧
    exec .encLen (framing [0x81]) = .next { framing [0x81] with rspOut := [0x0004] } ∧
    exec .encLen { framing [0x81] with crcAcc := 0x07, pktLen := 4, decState := .awaitingLength } =
      .next { framing [0x81] with crcAcc := 0x07, pktLen := 4, decState := .awaitingLength, rspOut := [0x0004] } ∧
    UnitName.pkt ≠ Instr.unit .encLen :=
  ⟨⟨rfl, rfl, rfl⟩, by decide, by decide, next_of_nextIs (by decide +kernel), next_of_nextIs (by decide +kernel), by decide⟩

theorem witness_ReadsChangeNothingAndInitsAreIdempotent :
    isRead (.encRd 2) = true ∧ exec (.encRd 2) (framing [0x81]) = .next { framing [0x81] with rspOut := [0x0081] } ∧
    Instr.encInit ∈ [Instr.crcInit, .encInit, .pktInit, .decInit] ∧
    exec .encInit (framing [0x81]) =
      .next { framing [] with encBuf := [(0, 0x81)], rspOut := [0x0000] } ∧
    exec .encInit { framing [] with encBuf := [(0, 0x81)], rspOut := [0x0000] } =
      .next { framing [] with encBuf := [(0, 0x81)], rspOut := [0x0000, 0x0000] } := by
  and_intros <;> first | decide +kernel | exact next_of_nextIs (by decide +kernel)

/-- The two flags rising, staying and cleared. -/
theorem witness_OverflowFlagsAreSticky :
    exec (.encPut 0x20) (framing (counting 32)) = .next { framing (counting 32) true with rspOut := [0x0100] } ∧
    exec .encLen (framing (counting 32) true) = .next { framing (counting 32) true with rspOut := [0x0100] } ∧
    exec .encInit (framing (counting 32) true) =
      .next { framing (counting 32) with encLen := 0, rspOut := [0x0000] } ∧
    exec (.pktPut 0x00) { State.reset with pktLen := 258 } =
      .next { State.reset with pktLen := 258, pktOvf := true, rspOut := [0x0000] } ∧
    exec .pktInit { State.reset with pktLen := 258, pktOvf := true } = .next { State.reset with rspOut := [0x0000] } := by
  and_intros <;> first | decide +kernel | exact next_of_nextIs (by decide +kernel)

/-- Two states that differ in a stale byte of every buffer. -/
theorem witness_StaleBufferBytesAreNeverObserved :
    State.Legal (framing [0x81]) ∧
    ObsEq (framing [0x81]) { framing [0x81] with encBuf := [(0, 0x81), (1, 0x55)], pktBuf := [(0, 0x55)], decBuf := [(3, 0x55)] } ∧
    transactAll [0x1302, 0x2200] (framing [0x81]) = .next { framing [0x81] with rspOut := [0x0081, 0x0100] } := by
  refine ⟨by decide, ⟨rfl, rfl, rfl, ?_, rfl, rfl, ?_, rfl, rfl, rfl, ?_, rfl, rfl⟩, next_of_nextIs (by decide +kernel)⟩ <;>
    intro a ha
  · obtain rfl : a = 0 := by
      have : a < 1 := ha
      omega
    rfl
  · exact absurd ha (Nat.not_lt_zero a)
  · exact absurd ha (Nat.not_lt_zero a)

theorem witness_ResetEqualsTheFourInits : State.Legal (framing (counting 32) true) := by decide

/-- A host that pushes a header, a length, and a CRC byte: the last push answers OK, and a further one would owe a DEC.INIT. -/
theorem witness_DisciplinedHostsLoseNoByte :
    State.reset.decState ≠ .ready ∧ Disciplined false [.decPush 0xD5, .decPush 0x00] State.reset ∧
    [Instr.decPush 0xD5, .decPush 0x00] = [.decPush 0xD5] ++ .decPush 0x00 :: [] ∧
    execAll [.decPush 0xD5] State.reset = .next { decoding .awaitingLength 0 [] with rspOut := [0x0001] } ∧
    exec (.decPush 0x00) { decoding .awaitingLength 0 [] with rspOut := [0x0001] } =
      .next { decoding .awaitingCrc 0 [] with rspOut := [0x0001, 0x0003] } := by
  refine ⟨by decide, ⟨fun _ => rfl, fun t ht => ?_⟩, rfl, next_of_nextIs (by decide +kernel), next_of_nextIs (by decide +kernel)⟩
  have h : exec (.decPush 0xD5) State.reset = .next { decoding .awaitingLength 0 [] with rspOut := [0x0001] } :=
    next_of_nextIs (by decide +kernel)
  rw [h] at ht
  obtain rfl := Host.Outcome.next.inj ht
  exact ⟨fun _ => by decide +kernel, fun _ _ => trivial⟩

theorem witness_CrcInitSeedsTheAccumulator : State.Legal { framing (counting 32) true with crcAcc := 0xA1 } := by decide
theorem witness_CrcUpdFoldsOneByte : State.Legal { decoding .awaitingData 2 [0x81] with crcAcc := 0x35 } := by decide
theorem witness_CrcRdReadsTheAccumulator : State.Legal { State.reset with crcAcc := 0xD2, pktLen := 258, pktOvf := true } := by
  decide

theorem witness_CrcDetectsEverySingleByteChange : (0x80 : Byte) ≠ 0x81 := by decide

theorem witness_CrcCommandsComputeCrc8 :
    State.Legal (framing [0x81]) ∧ Instr.crcInit ∉ [Instr.crcUpd 0x31, .encPut 0x05, .crcUpd 0x32] ∧
    (framing [0x81]).crcAcc = State.reset.crcAcc := by decide

theorem witness_EncInitStartsAPayload : State.Legal (framing (counting 32) true) := by decide

/-- Room for the last byte; full without and with the flag. -/
theorem witness_EncPutAppendsOrOverflows :
    (State.Legal (framing (counting 31)) ∧ (framing (counting 31)).encOvf = false ∧ (framing (counting 31)).encLen.toNat < 32) ∧
    (State.Legal (framing (counting 32)) ∧ (framing (counting 32)).encLen.toNat = 32) ∧
    (State.Legal (framing (counting 32) true) ∧ (framing (counting 32) true).encOvf = true) := by
  and_intros <;> decide +kernel

theorem witness_EncLenAnswersThePacketLength :
    State.Legal (framing (counting 32)) ∧ (framing (counting 32)).encOvf = false ∧
    State.Legal (framing (counting 32) true) ∧ (framing (counting 32) true).encOvf = true := by decide

/-- With a two-byte payload the indices 0, 1, 2 and 3, 4, and 5 fall one under each clause; with none, 2 is the CRC byte's. -/
theorem witness_EncRdReadsThePacket :
    State.Legal (framing (counting 32) true) ∧ (framing (counting 32) true).encOvf = true ∧
    State.Legal (framing [0x81, 0x01]) ∧ (framing [0x81, 0x01]).encOvf = false ∧
    5 > (framing [0x81, 0x01]).encLen.toNat + 2 ∧ 2 ≤ 3 ∧ 3 ≤ (framing [0x81, 0x01]).encLen.toNat + 1 ∧
    4 = (framing [0x81, 0x01]).encLen.toNat + 2 ∧ 2 = (framing []).encLen.toNat + 2 := by
  and_intros <;> decide +kernel

theorem witness_FramerCommandsComputeEncode :
    State.Legal (framing [0x55]) ∧ Instr.encInit ∉ [Instr.encPut 0x81, .crcUpd 0x31, .encPut 0x64] ∧
    [0x81, 0x64] = [Instr.encPut 0x81, .crcUpd 0x31, .encPut 0x64].filterMap encPutByte ∧
    [Instr.encPut 0x81, .crcUpd 0x31, .encPut 0x64] = [Instr.encPut 0x81, .crcUpd 0x31] ++ .encPut 0x64 :: [] ∧
    encodePacket [0x81, 0x64] = .ok [0xD5, 0x02, 0x81, 0x64, crc8 [0x81, 0x64]] ∧
    encodePacket (counting 33) = .error .lengthErr ∧ Instr.encInit ∉ [Instr.encPut 0x81, .encLen] := by
  and_intros <;> decide +kernel

theorem witness_EncodeMakesThePacket :
    (counting 33).length > 32 ∧ (counting 32).length ≤ 32 ∧ encodePacket [0x81] = .ok [0xD5, 0x01, 0x81, 0xD2] := by
  decide +kernel

/-- The longest packet's length byte, length and last byte. -/
theorem witness_FramerNeverEmitsAnOversizePacket :
    (counting 33).length > 32 ∧
    exec (.encRd 1) (framing (counting 32)) = .next { framing (counting 32) with rspOut := [rspWord .ok 0x20] } ∧
    exec .encLen (framing (counting 32)) = .next { framing (counting 32) with rspOut := [rspWord .ok 0x23] } ∧
    exec (.encRd 34) (framing (counting 32)) = .next { framing (counting 32) with rspOut := [rspWord .ok 0xD4] } := by
  and_intros <;> first | decide +kernel | exact next_of_nextIs (by decide +kernel)

theorem witness_PktInitStartsAPacket : State.Legal { State.reset with pktLen := 258, pktOvf := true } := by decide

theorem witness_PktPutAppendsOrOverflows :
    State.Legal { State.reset with pktLen := 257 } ∧ ({ State.reset with pktLen := 257 } : State).pktLen.toNat < 258 ∧
    State.Legal { State.reset with pktLen := 258 } ∧ ({ State.reset with pktLen := 258 } : State).pktLen.toNat = 258 := by
  decide

/-- A deframer that has seen 259 bytes beginning D5 FF. -/
def overlong : State := { State.reset with pktLen := 258, pktOvf := true, pktBuf := [(0, 0xD5), (1, 0xFF)] }

/-- For a legal packet that passes the first three lines of the verdict: whether its last byte is the CRC of its payload. -/
def checksRight (s : State) : Option Bool :=
  if s.Legal ∧ s.pktOvf = false ∧ 4 ≤ s.pktLen.toNat ∧ s.pktBuf.read 0 = 0xD5 ∧
      (s.pktBuf.read 1).toNat = s.pktLen.toNat - 3 then
    some (s.pktBuf.read (s.pktLen.toNat - 1) == crc8 ((List.range (s.pktLen.toNat - 3)).map fun k => s.pktBuf.read (2 + k)))
  else none

/-- One packet under each line of the verdict, with the lines before it not applying. -/
theorem witness_PktChkGivesTheVerdict :
    (State.Legal (deframing [0xD5, 0x00, 0x00]) ∧ (deframing [0xD5, 0x00, 0x00]).pktOvf = false ∧
      (deframing [0xD5, 0x00, 0x00]).pktLen.toNat < 4) ∧
    (State.Legal (deframing [0xD4, 0x01, 0x81, 0xD2]) ∧ 4 ≤ (deframing [0xD4, 0x01, 0x81, 0xD2]).pktLen.toNat ∧
      (deframing [0xD4, 0x01, 0x81, 0xD2]).pktBuf.read 0 ≠ 0xD5) ∧
    (State.Legal overlong ∧ overlong.pktOvf = true ∧ overlong.pktBuf.read 0 = 0xD5) ∧
    (State.Legal (deframing [0xD5, 0x02, 0x81, 0xD2]) ∧ 4 ≤ (deframing [0xD5, 0x02, 0x81, 0xD2]).pktLen.toNat ∧
      (deframing [0xD5, 0x02, 0x81, 0xD2]).pktBuf.read 0 = 0xD5 ∧
      ((deframing [0xD5, 0x02, 0x81, 0xD2]).pktBuf.read 1).toNat ≠ (deframing [0xD5, 0x02, 0x81, 0xD2]).pktLen.toNat - 3) ∧
    (checksRight (deframing [0xD5, 0x01, 0x81, 0xD3]) = some false ∧ checksRight (deframing [0xD5, 0x01, 0x81, 0xD2]) = some true) := by
  and_intros <;> decide +kernel

/-- An error of PKT.CHK; a good packet with the last index in range and the first out of it. -/
theorem witness_PktRdReadsThePayload :
    State.Legal (deframing [0xD5]) ∧ OnlyAnswers .pktChk (deframing [0xD5]) .lengthErr 0x00 ∧
    State.Legal (deframing [0xD5, 0x01, 0x81, 0xD2]) ∧ OnlyAnswers .pktChk (deframing [0xD5, 0x01, 0x81, 0xD2]) .ok 0x01 ∧
    0 < (deframing [0xD5, 0x01, 0x81, 0xD2]).pktLen.toNat - 3 ∧ 1 ≥ (deframing [0xD5, 0x01, 0x81, 0xD2]).pktLen.toNat - 3 := by
  unfold OnlyAnswers
  and_intros <;> first | decide +kernel | exact next_of_nextIs (by decide +kernel)

theorem witness_DeframerCommandsComputeDecode :
    State.Legal (deframing [0x55]) ∧
    Instr.pktInit ∉ [Instr.pktPut 0xD5, .pktPut 0x01, .decStat, .pktPut 0x81, .pktPut 0xD2] ∧
    [0xD5, 0x01, 0x81, 0xD2] =
      [Instr.pktPut 0xD5, .pktPut 0x01, .decStat, .pktPut 0x81, .pktPut 0xD2].filterMap pktPutByte ∧
    decodePacket [0xD5, 0x01, 0x81, 0xD2] = .ok [0x81] ∧ ([0x81] : List Byte)[0]? = some 0x81 ∧
    decodePacket [] = .error .lengthErr := by
  and_intros <;> decide +kernel

theorem witness_DecodeHasALowerLimitOnly :
    ([0xD5, 0x00, 0x00] : List Byte).length < 4 ∧ 1 ≤ (counting 255).length ∧ (counting 255).length ≤ 255 := by decide +kernel

theorem witness_FramedPayloadsDeframe :
    State.Legal (framing [0x81]) ∧ (framing [0x81]).encOvf = false ∧ 1 ≤ (framing [0x81]).encLen.toNat ∧
    ([0xD5, 0x01, 0x81, 0xD2] : List Byte).length = (framing [0x81]).encLen.toNat + 3 ∧
    ∀ i b, ([0xD5, 0x01, 0x81, 0xD2] : List Byte)[i]? = some b → OnlyAnswers (.encRd i) (framing [0x81]) .ok b := by
  refine ⟨by decide, rfl, by decide, rfl, fun i b h => ?_⟩
  unfold OnlyAnswers
  rcases i with _ | _ | _ | _ | i <;> simp at h <;> subst h <;> exact next_of_nextIs (by decide +kernel)

/-- A change in each part of the packet of 81. -/
theorem witness_DamagedPacketsAreDetected :
    1 ≤ ([0x81] : List Byte).length ∧ encodePacket [0x81] = .ok [0xD5, 0x01, 0x81, 0xD2] ∧ (0x01 : Byte) ≠ 0 ∧
    ([0xD5, 0x01, 0x81, 0xD2] : List Byte)[0]? = some 0xD5 ∧ ([0xD5, 0x01, 0x81, 0xD2] : List Byte)[1]? = some 0x01 ∧
    ([0xD5, 0x01, 0x81, 0xD2] : List Byte)[3]? = some 0xD2 := by
  and_intros <;> decide +kernel

theorem witness_DecInitMakesTheDecoderFresh : State.Legal (decoding .awaitingData 3 [0x81, 0x64]) := by decide

/-- A legal state for each decoder state, and a byte under each row of the table: the length bytes 0, 1, 32 and 33; a data
byte before and at the announced length; the empty payload's CRC and a wrong one. -/
theorem witness_DecPushFollowsTheTransitionTable :
    State.Legal (decoding .awaitingHeader 0 []) ∧ State.Legal (decoding .awaitingLength 0 []) ∧
    (1 ≤ (0x01 : Byte).toNat ∧ (0x20 : Byte).toNat ≤ 32 ∧ 32 < (0x21 : Byte).toNat) ∧
    (State.Legal (decoding .awaitingData 3 [0x81]) ∧
      (decoding .awaitingData 3 [0x81]).decCnt.toNat + 1 < (decoding .awaitingData 3 [0x81]).decExpLen.toNat) ∧
    (State.Legal (decoding .awaitingData 2 [0x81]) ∧
      (decoding .awaitingData 2 [0x81]).decCnt.toNat + 1 = (decoding .awaitingData 2 [0x81]).decExpLen.toNat) ∧
    (State.Legal (decoding .awaitingCrc 1 [0x81]) ∧
      (0xD2 : Byte) = crc8 ((List.range (decoding .awaitingCrc 1 [0x81]).decCnt.toNat).map
        (decoding .awaitingCrc 1 [0x81]).decBuf.read) ∧
      (0xD3 : Byte) ≠ crc8 ((List.range (decoding .awaitingCrc 1 [0x81]).decCnt.toNat).map
        (decoding .awaitingCrc 1 [0x81]).decBuf.read)) ∧
    State.Legal (decoding .ready 1 [0x81]) := by
  and_intros <;> decide +kernel

theorem witness_DecStatAndDecLenRead :
    State.Legal (decoding .awaitingHeader 0 []) ∧ State.Legal (decoding .awaitingLength 0 []) ∧
    State.Legal (decoding .awaitingData 2 [0x81]) ∧ State.Legal (decoding .awaitingCrc 0 []) ∧
    State.Legal (decoding .ready 32 (counting 32)) := by
  and_intros <;> decide +kernel

theorem witness_DecRdReadsThePayload :
    State.Legal (decoding .awaitingCrc 1 [0x81]) ∧ (decoding .awaitingCrc 1 [0x81]).decState ≠ .ready ∧
    State.Legal (decoding .ready 1 [0x81]) ∧ (decoding .ready 1 [0x81]).decState = .ready ∧
    0 < (decoding .ready 1 [0x81]).decCnt.toNat ∧ 1 ≥ (decoding .ready 1 [0x81]).decCnt.toNat := by
  and_intros <;> decide +kernel

theorem witness_StreamingAFramedPayloadReachesReady :
    State.Legal (decoding .ready 1 [0x55]) ∧ encodePacket [0x81] = .ok [0xD5, 0x01, 0x81, 0xD2] ∧ 4 ≤ ([0x81] : List Byte).length + 3 ∧
    State.Legal State.reset ∧ State.reset.decState = .awaitingHeader ∧ encodePacket [] = .ok [0xD5, 0x00, 0x00] := by
  and_intros <;> decide +kernel

theorem witness_ReadyTakesLengthPlusThreeOkPushes :
    State.Legal State.reset ∧
    execAll (.decInit :: ([0x00, 0xD5, 0xFF, 0x00, 0x00] : List Byte).map .decPush) State.reset =
      .next { decoding .ready 0 [] with rspOut := [0x0000, 0x0200, 0x0001, 0x0300, 0x0003, 0x0004] } ∧
    ({ decoding .ready 0 [] with rspOut := [0x0000, 0x0200, 0x0001, 0x0300, 0x0003, 0x0004] } : State).decState = .ready := by
  and_intros <;> first | decide +kernel | exact next_of_nextIs (by decide +kernel)

theorem witness_NoiseWithoutHeadersIsSkipped :
    State.Legal State.reset ∧ (0xD5 : Byte) ∉ ([0x00, 0xFF, 0xD4] : List Byte) ∧
    encodePacket [0x81] = .ok [0xD5, 0x01, 0x81, 0xD2] := by decide +kernel

theorem witness_PseudoInstructionsMeetTheContracts :
    State.Legal (framing [0x55]) ∧ encodePacket [0x81] = .ok [0xD5, 0x01, 0x81, 0xD2] ∧
    encodePacket (counting 33) = .error .lengthErr ∧ decodePacket [0xD5, 0x01, 0x81, 0xD2] = .ok [0x81] ∧
    decodePacket [0xD5] = .error .lengthErr := by
  and_intros <;> decide +kernel

/-- No command outstanding and ready for one; and one outstanding with its response at the pins. -/
def idlePort : PortState := ⟨State.reset, .accepting 0, 0⟩
def busyPort (n : Nat) : PortState := ⟨State.reset, .answering 0x00D5 n, 0⟩

theorem witness_PortHandshakeFollowsTheProtocol :
    (idlePort.phase ≠ .beforeReset ∧ idlePort.accepts ⟨false, true, 0x0200, false⟩ = some 0x0200 ∧
      ∃ q, idlePort.clock ⟨false, true, 0x0200, false⟩ = .next q) ∧
    ((busyPort 0).delivers ⟨false, true, 0x0200, false⟩ = none ∧
      ∃ q, (busyPort 0).clock ⟨false, true, 0x0200, false⟩ = .next q) ∧
    ((busyPort 1).delivers ⟨false, true, 0x0200, true⟩ = none ∧
      ∃ q, (busyPort 1).clock ⟨false, true, 0x0200, true⟩ = .next q) ∧
    ((busyPort 0).delivers ⟨false, true, 0x0200, true⟩ = some 0x00D5 ∧
      ∃ q, (busyPort 0).clock ⟨false, true, 0x0200, true⟩ = .next q) :=
  ⟨⟨by decide, by decide, _, rfl⟩, ⟨by decide, _, rfl⟩, ⟨by decide, _, rfl⟩, ⟨by decide, _, rfl⟩⟩

theorem witness_ResetEdgeResetsTheBlock :
    (⟨true, true, 0x0200, true⟩ : PinsIn).rst = true ∧ (⟨false, true, 0x0200, true⟩ : PinsIn).rst = false ∧
    (⟨State.reset, .beforeReset, 0⟩ : PortState).phase = .beforeReset := by decide

/-- Two idle edges and then a command taken. -/
theorem witness_PortsRefineTheTransactions :
    (⟨State.reset, .accepting 2, 0⟩ : PortState).core.Legal ∧
    (∀ i ∈ List.replicate 3 (⟨false, true, 0x0200, true⟩ : PinsIn), i.rst = false) ∧
    ∃ tr, (⟨State.reset, .accepting 2, 0⟩ : PortState).run (List.replicate 3 ⟨false, true, 0x0200, true⟩) = .next tr ∧
      tr.accepted = [0x0200] := by
  exact ⟨by decide, by decide, _, rfl, rfl⟩

theorem witness_EveryAcceptedCommandIsAnswered :
    (busyPort 3).phase = .answering 0x00D5 3 ∧ (⟨State.reset, .accepting 2, 0⟩ : PortState).phase = .accepting 2 ∧
    (⟨State.reset, .accepting 2, 0⟩ : PortState).core.Legal ∧ (⟨false, true, 0x0200, true⟩ : PinsIn).rst = false ∧
    (⟨false, true, 0x0200, true⟩ : PinsIn).cmdValid = true ∧ (⟨false, true, 0x0200, true⟩ : PinsIn).rspReady = true := by
  decide

end Sys2Proof.Tests
end

section
/-! SUPPORT. The scope family: the step and the transaction by case, R35's invariants along every run, and that in a legal
state a transaction always completes with one response word (R10, R11). -/

namespace Sys2Proof.Machine

/-! ### The transaction and the step, by what is decoded and what is offered -/

theorem transact_of_decode_ok {w : CmdWord} {i : Instr} (s : State) (h : decode w = .ok i) : transact w s = exec i s := by
  simp only [transact, h]

theorem transact_of_decode_error {w : CmdWord} {e : Reserved} (s : State) (h : decode w = .error e) :
    transact w s = execReserved s := by
  simp only [transact, h]

/-- R215, log 3: with no word offered the block holds its state. -/
theorem step_of_cmdIn_nil {s : State} (h : s.cmdIn = []) : step s = .next s := by
  simp only [step, stepCommand, h]

/-- R10: the host's next word is taken from the queue and its transaction made. -/
theorem step_of_cmdIn_cons {s : State} {w : CmdWord} {ws : List CmdWord} (h : s.cmdIn = w :: ws) :
    step s = transact w { s with cmdIn := ws } := by
  simp only [step, stepCommand, h]

/-! ### In a legal state every transaction and every step completes, in a legal state -/

/-- A response touches no register of R35. -/
theorem State.Legal.respondErr {s : State} (h : s.Legal) (st : Status) : (s.respondErr st).Legal := h

/-- Taking words from the host's queue touches no register of R35. -/
theorem State.Legal.withCmdIn {s : State} (h : s.Legal) (ws : List CmdWord) : ({ s with cmdIn := ws } : State).Legal := h

/-- R11 for one command word: a decoded command by its effect, a reserved word by its `ILLEGAL_CMD`. -/
theorem transact_of_legal (w : CmdWord) {s : State} (h : s.Legal) :
    ∃ t, transact w s = .next t ∧ t.Legal ∧ ∃ st d, Answers s t st d := by
  cases hdec : decode w with
  | ok i =>
    obtain ⟨st, d, hans, -⟩ := effect_answers i s
    exact ⟨effect i s, by rw [transact_of_decode_ok s hdec, exec_of_legal i h], effect_legal i h, st, d, hans⟩
  | error e =>
    exact ⟨s.respondErr .illegalCmd, by rw [transact_of_decode_error s hdec, execReserved_of_legal h], h.respondErr _,
      .illegalCmd, 0x00, rfl, rfl⟩

theorem step_of_legal {s : State} (h : s.Legal) : ∃ t, step s = .next t ∧ t.Legal := by
  cases hc : s.cmdIn with
  | nil => exact ⟨s, step_of_cmdIn_nil hc, h⟩
  | cons w ws =>
    obtain ⟨t, ht, hl, -⟩ := transact_of_legal w (h.withCmdIn ws)
    exact ⟨t, by rw [step_of_cmdIn_cons hc, ht], hl⟩

theorem step_keeps_legal {s t : State} (h : s.Legal) (hs : step s = .next t) : t.Legal := by
  obtain ⟨u, hu, hl⟩ := step_of_legal h
  have htu : t = u := Host.Outcome.next.inj (hs.symm.trans hu)
  exact htu ▸ hl

/-- R35: every state a run reaches is legal, whatever words the host sends and whatever the buffers held at reset. -/
theorem Reachable.legal {s : State} (h : Reachable s) : s.Legal := by
  induction h with
  | reset ws e p d =>
    show State.reset.Legal
    decide
  | step _ hs ih => exact step_keeps_legal ih hs

/-! ### The obligations -/

/-- Settles O5: a reachable state is legal (R35), and from a legal state each step and each transaction completes. -/
theorem noCommandWordEverStopsTheBlock : Obligations.NoCommandWordEverStopsTheBlock := by
  intro s hs
  constructor
  · obtain ⟨t, ht, -⟩ := step_of_legal hs.legal
    exact ⟨t, ht⟩
  · intro w
    obtain ⟨t, ht, hl, st, d, hrsp, -⟩ := transact_of_legal w hs.legal
    exact ⟨t, ht, hl, rspWord st d, hrsp⟩

/-- Settles O7: the step by what the host offers, the transaction by what the word decodes to. -/
theorem stepRunsTheDecodedCommand : Obligations.StepRunsTheDecodedCommand := by
  refine fun s => ⟨step_of_cmdIn_nil, fun w ws hc => ⟨fun i hi => ?_, fun e he => ?_⟩⟩
  · rw [step_of_cmdIn_cons hc, transact_of_decode_ok _ hi]
  · rw [step_of_cmdIn_cons hc, transact_of_decode_error _ he]

end Sys2Proof.Machine
end

section
/-! SUPPORT. The state family: who writes what, the invariant of R35 with the buffers' canonical form, the independence of
the four units (R21), the sticky flags (R24), and that stale buffer bytes are never observed (R33). -/

namespace Sys2Proof.Machine

/-! ### Who writes what -/

/-- R57: a read command does nothing but answer. -/
theorem effect_of_isRead {i : Instr} (s : State) (h : isRead i = true) : ∃ st d, effect i s = s.respond st d := by
  cases i with
  | crcInit | crcUpd _ | encInit | encPut _ | pktInit | pktPut _ | decInit | decPush _ => cases h
  | crcRd | encLen | encRd _ | pktChk | pktRd _ | decStat | decLen | decRd _ =>
    simp only [effect]
    (repeat' split) <;> exact ⟨_, _, rfl⟩

/-- A response touches no unit's items. -/
theorem sameUnit_respond (u : UnitName) (s : State) (st : Status) (d : Byte) : SameUnit u s (s.respond st d) := by
  cases u <;> simp [SameUnit, SameCrc, SameEnc, SamePkt, SameDec]

/-- Only a command of the unit that is no read can change the unit's items. -/
theorem effect_sameUnit_or_writer (i : Instr) (u : UnitName) (s : State) :
    SameUnit u s (effect i s) ∨ isRead i = false ∧ i.unit = u := by
  by_cases hu : u = i.unit
  · cases hr : isRead i with
    | true =>
      obtain ⟨st, d, he⟩ := effect_of_isRead s hr
      exact .inl (he ▸ sameUnit_respond u s st d)
    | false => exact .inr ⟨rfl, hu.symm⟩
  · exact .inl (effect_other_unit i s hu)

theorem effect_enc_cases (i : Instr) (s : State) : SameEnc s (effect i s) ∨ i = .encInit ∨ ∃ b, i = .encPut b := by
  refine (effect_sameUnit_or_writer i .enc s).imp_right fun ⟨hr, hu⟩ => ?_
  cases i <;> simp [isRead, Instr.unit] at hr hu ⊢

theorem effect_pkt_cases (i : Instr) (s : State) : SamePkt s (effect i s) ∨ i = .pktInit ∨ ∃ b, i = .pktPut b := by
  refine (effect_sameUnit_or_writer i .pkt s).imp_right fun ⟨hr, hu⟩ => ?_
  cases i <;> simp [isRead, Instr.unit] at hr hu ⊢

theorem effect_dec_cases (i : Instr) (s : State) : SameDec s (effect i s) ∨ i = .decInit ∨ ∃ b, i = .decPush b := by
  refine (effect_sameUnit_or_writer i .dec s).imp_right fun ⟨hr, hu⟩ => ?_
  cases i <;> simp [isRead, Instr.unit] at hr hu ⊢

/-! ### What the writing commands do to buffers and flags -/

theorem effect_encPut_of_room (b : Byte) {s : State} (h : s.EncHasRoom) :
    effect (.encPut b) s = (s.encAppend b).respond .ok 0x00 := if_pos h

theorem effect_encPut_of_full (b : Byte) {s : State} (h : ¬ s.EncHasRoom) :
    effect (.encPut b) s = s.setEncOvf.respondErr .lengthErr := if_neg h

theorem effect_pktPut_ite (b : Byte) (s : State) : effect (.pktPut b) s =
    if s.PktHasRoom then (s.pktAppend b).respond .ok 0x00 else s.setPktOvf.respond .ok 0x00 :=
  apply_ite (State.respond · .ok 0x00) _ _ _

theorem effect_pktPut_of_room (b : Byte) {s : State} (h : s.PktHasRoom) :
    effect (.pktPut b) s = (s.pktAppend b).respond .ok 0x00 := (effect_pktPut_ite b s).trans (if_pos h)

theorem effect_pktPut_of_full (b : Byte) {s : State} (h : ¬ s.PktHasRoom) :
    effect (.pktPut b) s = s.setPktOvf.respond .ok 0x00 := (effect_pktPut_ite b s).trans (if_neg h)

theorem effect_decPush_header (b : Byte) {s : State} (h : s.decState = .awaitingHeader) :
    effect (.decPush b) s = decPushHeader b s := by simp only [effect, h]

theorem effect_decPush_length (b : Byte) {s : State} (h : s.decState = .awaitingLength) :
    effect (.decPush b) s = decPushLength b s := by simp only [effect, h]

theorem effect_decPush_data (b : Byte) {s : State} (h : s.decState = .awaitingData) :
    effect (.decPush b) s = decPushData b s := by simp only [effect, h]

theorem effect_decPush_crc (b : Byte) {s : State} (h : s.decState = .awaitingCrc) :
    effect (.decPush b) s = decPushCrc b s := by simp only [effect, h]

theorem effect_decPush_ready (b : Byte) {s : State} (h : s.decState = .ready) :
    effect (.decPush b) s = decPushReady s := by simp only [effect, h]

/-- DEC.PUSH writes the buffer in AwaitingData only (R163 to R167). -/
theorem effect_decPush_decBuf (b : Byte) (s : State) :
    (effect (.decPush b) s).decBuf = if s.decState = .awaitingData then s.decBuf.write s.decCnt.toNat b else s.decBuf := by
  cases hs : s.decState with
  | awaitingHeader =>
    obtain ⟨-, h⟩ | ⟨-, h⟩ := decPushHeader_cases b s <;> simp [effect_decPush_header b hs, h]
  | awaitingLength =>
    obtain ⟨-, h⟩ | ⟨-, -, h⟩ | ⟨-, h⟩ := decPushLength_cases b s <;> simp [effect_decPush_length b hs, h]
  | awaitingData =>
    obtain ⟨-, h⟩ | ⟨-, h⟩ := decPushData_cases b s <;> simp [effect_decPush_data b hs, h]
  | awaitingCrc =>
    obtain ⟨-, h⟩ | ⟨-, h⟩ := decPushCrc_cases b s <;> simp [effect_decPush_crc b hs, h]
  | ready => simp [effect_decPush_ready b hs, decPushReady]

/-! ### The invariant -/

/-- A write inside the buffer keeps both halves of the canonical form. -/
theorem Memory.write_canonical {m : Memory} {a cap : Nat} (v : Byte) (ha : a < cap)
    (h : m.wf = true ∧ m.within cap = true) : (m.write a v).wf = true ∧ (m.write a v).within cap = true :=
  ⟨Memory.write_wf m a v h.1, Memory.write_within m v ha h.2⟩

theorem effect_encBuf_canonical (i : Instr) {s : State} (h : s.encBuf.wf = true ∧ s.encBuf.within encCap = true) :
    (effect i s).encBuf.wf = true ∧ (effect i s).encBuf.within encCap = true := by
  obtain ⟨hb, -⟩ | rfl | ⟨b, rfl⟩ := effect_enc_cases i s
  · rwa [hb]
  · exact h
  · by_cases hr : s.EncHasRoom
    · rw [effect_encPut_of_room b hr]
      exact Memory.write_canonical b hr.2 h
    · rw [effect_encPut_of_full b hr]
      exact h

theorem effect_pktBuf_canonical (i : Instr) {s : State} (h : s.pktBuf.wf = true ∧ s.pktBuf.within pktCap = true) :
    (effect i s).pktBuf.wf = true ∧ (effect i s).pktBuf.within pktCap = true := by
  obtain ⟨hb, -⟩ | rfl | ⟨b, rfl⟩ := effect_pkt_cases i s
  · rwa [hb]
  · exact h
  · by_cases hr : s.PktHasRoom
    · rw [effect_pktPut_of_room b hr]
      exact Memory.write_canonical b hr h
    · rw [effect_pktPut_of_full b hr]
      exact h

/-- In AwaitingData the append index is below `DEC_EXPLEN`, so below 32 (R35). -/
theorem effect_decBuf_canonical (i : Instr) {s : State} (hl : s.DecLegal)
    (h : s.decBuf.wf = true ∧ s.decBuf.within encCap = true) :
    (effect i s).decBuf.wf = true ∧ (effect i s).decBuf.within encCap = true := by
  obtain ⟨hb, -⟩ | rfl | ⟨b, rfl⟩ := effect_dec_cases i s
  · rwa [hb]
  · exact h
  · rw [effect_decPush_decBuf]
    split
    · next hs =>
      obtain ⟨hexp, -, -, hdata, -⟩ := hl
      exact Memory.write_canonical b (lt_of_lt_of_le (hdata hs) hexp) h
    · exact h

/-- Every effect in a legal state keeps the buffers' canonical form. -/
theorem effect_canonical (i : Instr) {s : State} (hl : s.Legal) (h : Canonical s) : Canonical (effect i s) := by
  obtain ⟨hew, hei, hpw, hpi, hd⟩ := h
  obtain ⟨hew', hei'⟩ := effect_encBuf_canonical i ⟨hew, hei⟩
  obtain ⟨hpw', hpi'⟩ := effect_pktBuf_canonical i ⟨hpw, hpi⟩
  exact ⟨hew', hei', hpw', hpi', effect_decBuf_canonical i hl.2.2 hd⟩

theorem transact_keeps_blockInv {w : CmdWord} {s t : State} (h : BlockInv s) (ht : transact w s = .next t) :
    BlockInv t := by
  obtain ⟨hl, ⟨i, -, rfl⟩ | ⟨-, rfl⟩⟩ := transact_next ht
  · exact ⟨effect_legal i hl, effect_canonical i hl h.2⟩
  · exact h

/-! ### The units share no state -/

/-- The block that holds unit `u`'s items of `s` and, in everything else, what `o` holds. -/
def State.graft (u : UnitName) (s o : State) : State :=
  match u with
  | .crc => { o with crcAcc := s.crcAcc }
  | .enc => { o with encBuf := s.encBuf, encLen := s.encLen, encOvf := s.encOvf }
  | .pkt => { o with pktBuf := s.pktBuf, pktLen := s.pktLen, pktOvf := s.pktOvf }
  | .dec => { o with decBuf := s.decBuf, decState := s.decState, decExpLen := s.decExpLen, decCnt := s.decCnt }

theorem graft_of_sameUnit {u : UnitName} {s o : State} (h : SameUnit u s o) : s.graft u o = o := by
  cases u with
  | crc => exact (congrArg (fun c => { o with crcAcc := c }) h).symm
  | enc =>
    obtain ⟨hb, hl, ho⟩ := h
    simp only [State.graft, ← hb, ← hl, ← ho]
  | pkt =>
    obtain ⟨hb, hl, ho⟩ := h
    simp only [State.graft, ← hb, ← hl, ← ho]
  | dec =>
    obtain ⟨hb, hs, he, hc⟩ := h
    simp only [State.graft, ← hb, ← hs, ← he, ← hc]

theorem sameUnit_graft_respond (u : UnitName) (s o : State) (st : Status) (d : Byte) :
    SameUnit u s ((s.graft u o).respond st d) := by
  cases u <;> simp [SameUnit, SameCrc, SameEnc, SamePkt, SameDec, State.graft]

theorem answers_graft_respond (u : UnitName) (s o : State) (st : Status) (d : Byte) :
    Answers o ((s.graft u o).respond st d) st d := by
  cases u <;> exact ⟨rfl, rfl⟩

/-- From `s` to `t`, and from `s`'s unit `u` grafted into `o` to `t'`, the same answer was given and the same left in the
unit, and nothing else of `o` changed. -/
def StepAlike (u : UnitName) (s o t t' : State) : Prop :=
  ∃ st d, Answers s t st d ∧ t' = (t.graft u o).respond st d

/-- A test that reads alike on both sides needs both branches alike. -/
theorem StepAlike.ite {u : UnitName} {s o t₁ t₂ t₁' t₂' : State} (c : Prop) [Decidable c]
    (h₁ : StepAlike u s o t₁ t₁') (h₂ : StepAlike u s o t₂ t₂') :
    StepAlike u s o (if c then t₁ else t₂) (if c then t₁' else t₂') := by
  split
  exacts [h₁, h₂]

theorem stepAlike_decPush (b : Byte) (s o : State) :
    StepAlike .dec s o (effect (.decPush b) s) (effect (.decPush b) (s.graft .dec o)) := by
  cases hs : s.decState with
  | awaitingHeader =>
    rw [effect_decPush_header b hs, effect_decPush_header (s := s.graft .dec o) b hs]
    exact .ite (b = hw.header) ⟨_, _, ⟨rfl, rfl⟩, rfl⟩ ⟨_, _, ⟨rfl, rfl⟩, rfl⟩
  | awaitingLength =>
    rw [effect_decPush_length b hs, effect_decPush_length (s := s.graft .dec o) b hs]
    exact .ite (b.toNat ≤ hw.maxPayload) ⟨_, _, ⟨rfl, rfl⟩, rfl⟩ ⟨_, _, ⟨rfl, rfl⟩, rfl⟩
  | awaitingData =>
    rw [effect_decPush_data b hs, effect_decPush_data (s := s.graft .dec o) b hs]
    exact ⟨_, _, ⟨rfl, rfl⟩, rfl⟩
  | awaitingCrc =>
    rw [effect_decPush_crc b hs, effect_decPush_crc (s := s.graft .dec o) b hs]
    exact .ite (b = crc8 s.decPayload) ⟨_, _, ⟨rfl, rfl⟩, rfl⟩ ⟨_, _, ⟨rfl, rfl⟩, rfl⟩
  | ready =>
    rw [effect_decPush_ready b hs, effect_decPush_ready (s := s.graft .dec o) b hs]
    exact ⟨_, _, ⟨rfl, rfl⟩, rfl⟩

/-- R21: amid any other block `o` a command does to its own unit's items what it does amid `s`, and answers the same. Every
test a command makes is on its own unit's items. -/
theorem effect_graft (i : Instr) (s o : State) :
    StepAlike i.unit s o (effect i s) (effect i (s.graft i.unit o)) := by
  cases i with
  | crcInit | crcUpd _ | crcRd | encInit | pktInit | decInit | decStat | decLen => exact ⟨_, _, ⟨rfl, rfl⟩, rfl⟩
  | encPut b => exact .ite s.EncHasRoom ⟨_, _, ⟨rfl, rfl⟩, rfl⟩ ⟨_, _, ⟨rfl, rfl⟩, rfl⟩
  | encLen => exact .ite (s.encOvf = true) ⟨_, _, ⟨rfl, rfl⟩, rfl⟩ ⟨_, _, ⟨rfl, rfl⟩, rfl⟩
  | encRd n =>
    exact .ite (s.encOvf = true) ⟨_, _, ⟨rfl, rfl⟩, rfl⟩
      (.ite (n > s.encLen.toNat + 2) ⟨_, _, ⟨rfl, rfl⟩, rfl⟩ ⟨_, _, ⟨rfl, rfl⟩, rfl⟩)
  | pktPut b =>
    rw [effect_pktPut_ite, effect_pktPut_ite]
    exact .ite s.PktHasRoom ⟨_, _, ⟨rfl, rfl⟩, rfl⟩ ⟨_, _, ⟨rfl, rfl⟩, rfl⟩
  | pktChk => exact .ite (pktVerdict s = .ok) ⟨_, _, ⟨rfl, rfl⟩, rfl⟩ ⟨_, _, ⟨rfl, rfl⟩, rfl⟩
  | pktRd n =>
    exact .ite (pktVerdict s ≠ .ok) ⟨_, _, ⟨rfl, rfl⟩, rfl⟩
      (.ite (n ≥ s.pktLen.toNat - 3) ⟨_, _, ⟨rfl, rfl⟩, rfl⟩ ⟨_, _, ⟨rfl, rfl⟩, rfl⟩)
  | decPush b => exact stepAlike_decPush b s o
  | decRd n =>
    exact .ite (s.decState ≠ .ready) ⟨_, _, ⟨rfl, rfl⟩, rfl⟩
      (.ite (n ≥ s.decCnt.toNat) ⟨_, _, ⟨rfl, rfl⟩, rfl⟩ ⟨_, _, ⟨rfl, rfl⟩, rfl⟩)

/-! ### The sticky flags -/

theorem effect_encOvf_stays {i : Instr} {s : State} (ho : s.encOvf = true) (hi : i ≠ .encInit) :
    (effect i s).encOvf = true := by
  obtain ⟨-, -, h⟩ | rfl | ⟨b, rfl⟩ := effect_enc_cases i s
  · rw [h, ho]
  · exact absurd rfl hi
  · rw [effect_encPut_of_full b (by simp [ho])]
    rfl

/-- In a legal state the framer without room and without the flag holds 32 bytes. -/
theorem effect_encOvf_rises {i : Instr} {s : State} (hl : s.EncLegal) (ho : s.encOvf = false)
    (h : (effect i s).encOvf = true) : (∃ b, i = .encPut b) ∧ s.encLen.toNat = 32 := by
  obtain ⟨-, -, hsame⟩ | rfl | ⟨b, rfl⟩ := effect_enc_cases i s
  · simp [hsame, ho] at h
  · cases h
  · by_cases hr : s.EncHasRoom
    · simp [effect_encPut_of_room b hr, ho] at h
    · have hfull : ¬ s.encLen.toNat < 32 := fun hlt => hr ⟨ho, hlt⟩
      have hle : s.encLen.toNat ≤ 32 := hl.1
      exact ⟨⟨b, rfl⟩, by omega⟩

theorem effect_pktOvf_stays {i : Instr} {s : State} (ho : s.pktOvf = true) (hi : i ≠ .pktInit) :
    (effect i s).pktOvf = true := by
  obtain ⟨-, -, h⟩ | rfl | ⟨b, rfl⟩ := effect_pkt_cases i s
  · rw [h, ho]
  · exact absurd rfl hi
  · rw [effect_pktPut_ite]
    split
    exacts [ho, rfl]

theorem effect_pktOvf_rises {i : Instr} {s : State} (hl : s.PktLegal) (ho : s.pktOvf = false)
    (h : (effect i s).pktOvf = true) : (∃ b, i = .pktPut b) ∧ s.pktLen.toNat = 258 := by
  obtain ⟨-, -, hsame⟩ | rfl | ⟨b, rfl⟩ := effect_pkt_cases i s
  · simp [hsame, ho] at h
  · cases h
  · by_cases hr : s.PktHasRoom
    · simp [effect_pktPut_of_room b hr, ho] at h
    · have hfull : ¬ s.pktLen.toNat < 258 := hr
      have hle : s.pktLen.toNat ≤ 258 := hl.1
      exact ⟨⟨b, rfl⟩, by omega⟩

/-- R123, R124: an overflowed payload has no packet to read. -/
theorem effect_encRead_of_ovf {i : Instr} {s : State} (ho : s.encOvf = true) (hi : i = .encLen ∨ ∃ n, i = .encRd n) :
    effect i s = s.respondErr .lengthErr := by
  obtain rfl | ⟨n, rfl⟩ := hi
  exacts [if_pos ho, if_pos ho]

/-! ### Stale buffer bytes -/

section StaleBytes

variable {s s' : State}

/-- A write at the end of an agreeing part extends it. -/
theorem Memory.read_write_congr {m m' : Memory} {n : Nat} (v : Byte) (h : ∀ a, a < n → m.read a = m'.read a) {a : Nat}
    (ha : a < n + 1) : (m.write n v).read a = (m'.write n v).read a := by
  by_cases hn : a = n
  · subst hn
    simp
  · rw [Memory.read_write_other m v hn, Memory.read_write_other m' v hn, h a (by omega)]

/-! One rule per operation of the model: it keeps `ObsEq`. -/

theorem ObsEq.respond (h : ObsEq s s') (st : Status) (d : Byte) :
    ObsEq (s.respond st d) (s'.respond st d) := { h with rspOut := by simp [h.rspOut] }

theorem ObsEq.respondErr (h : ObsEq s s') (st : Status) : ObsEq (s.respondErr st) (s'.respondErr st) :=
  h.respond st 0x00

theorem ObsEq.withCrcAcc (h : ObsEq s s') (c : Byte) :
    ObsEq { s with crcAcc := c } { s' with crcAcc := c } := { h with crcAcc := rfl }

theorem ObsEq.withDecState (h : ObsEq s s') (d : DecState) :
    ObsEq { s with decState := d } { s' with decState := d } := { h with decState := rfl }

theorem ObsEq.withDecExpLen (h : ObsEq s s') (n : BitVec 6) :
    ObsEq { s with decExpLen := n } { s' with decExpLen := n } := { h with decExpLen := rfl }

theorem ObsEq.setEncOvf (h : ObsEq s s') : ObsEq s.setEncOvf s'.setEncOvf := { h with encOvf := rfl }

theorem ObsEq.setPktOvf (h : ObsEq s s') : ObsEq s.setPktOvf s'.setPktOvf := { h with pktOvf := rfl }

/-! An INIT's zero counter covers no byte, so it asks nothing of the buffers. -/

theorem ObsEq.clearEnc (h : ObsEq s s') : ObsEq s.clearEnc s'.clearEnc :=
  { h with encLen := rfl, encOvf := rfl, encBuf := fun a ha => absurd ha (Nat.not_lt_zero a) }

theorem ObsEq.clearPkt (h : ObsEq s s') : ObsEq s.clearPkt s'.clearPkt :=
  { h with pktLen := rfl, pktOvf := rfl, pktBuf := fun a ha => absurd ha (Nat.not_lt_zero a) }

theorem ObsEq.freshDec (h : ObsEq s s') :
    ObsEq { s with decState := .awaitingHeader, decExpLen := 0, decCnt := 0 }
      { s' with decState := .awaitingHeader, decExpLen := 0, decCnt := 0 } :=
  { h with decState := rfl, decExpLen := rfl, decCnt := rfl, decBuf := fun a ha => absurd ha (Nat.not_lt_zero a) }

theorem ObsEq.decGoto (h : ObsEq s s') (d : DecState) : ObsEq (s.decGoto d) (s'.decGoto d) :=
  (h.withDecState d).respond .ok (decStateByte d)

theorem ObsEq.encAppend (h : ObsEq s s') (b : Byte) : ObsEq (s.encAppend b) (s'.encAppend b) :=
  { h with
    encLen := congrArg (· + 1) h.encLen
    encBuf := fun a ha => by
      simp only [State.encAppend_encBuf, ← h.encLen]
      exact Memory.read_write_congr b h.encBuf (by simp only [State.encAppend_encLen] at ha; bv_omega) }

theorem ObsEq.pktAppend (h : ObsEq s s') (b : Byte) : ObsEq (s.pktAppend b) (s'.pktAppend b) :=
  { h with
    pktLen := congrArg (· + 1) h.pktLen
    pktBuf := fun a ha => by
      simp only [State.pktAppend_pktBuf, ← h.pktLen]
      exact Memory.read_write_congr b h.pktBuf (by simp only [State.pktAppend_pktLen] at ha; bv_omega) }

theorem ObsEq.decAppend (h : ObsEq s s') (b : Byte) : ObsEq (s.decAppend b) (s'.decAppend b) :=
  { h with
    decCnt := congrArg (· + 1) h.decCnt
    decBuf := fun a ha => by
      simp only [State.decAppend_decBuf, ← h.decCnt]
      exact Memory.read_write_congr b h.decBuf (by simp only [State.decAppend_decCnt] at ha; bv_omega) }

/-! What a command reads of a buffer is below the counter, so it is the same on both sides. -/

theorem ObsEq.encPayload (h : ObsEq s s') : s.encPayload = s'.encPayload := by
  unfold State.encPayload
  rw [← h.encLen]
  exact Memory.slice_congr h.encBuf

theorem ObsEq.decPayload (h : ObsEq s s') : s.decPayload = s'.decPayload := by
  unfold State.decPayload
  rw [← h.decCnt]
  exact Memory.slice_congr h.decBuf

theorem ObsEq.pktPayload (h : ObsEq s s') : s.pktPayload = s'.pktPayload := by
  unfold State.pktPayload
  rw [← h.pktLen]
  exact Memory.slice_congr fun a ha => h.pktBuf a (by omega)

theorem ObsEq.encPacketByte (h : ObsEq s s') (i : Nat) : encPacketByte s i = encPacketByte s' i := by
  unfold Machine.encPacketByte
  rw [← h.encLen, h.encPayload]
  split
  · rfl
  split
  · rfl
  split
  · exact h.encBuf _ (by unfold encReadIndex; omega)
  · rfl

/-- The verdict reads a byte only of a packet of at least 4 bytes: a shorter one with `PKT_OVF` set is no legal state (R35). -/
theorem ObsEq.pktVerdict (h : ObsEq s s') (hl : s.PktLegal) : pktVerdict s = pktVerdict s' := by
  rw [pktVerdict_eq, pktVerdict_eq, ← h.pktLen, ← h.pktOvf]
  by_cases hshort : s.pktOvf = false ∧ s.pktLen.toNat < 4
  · simp [hshort]
  · have hlen : 4 ≤ s.pktLen.toNat := by
      by_contra hlt
      cases ho : s.pktOvf with
      | false => exact hshort ⟨ho, by omega⟩
      | true =>
        have hfull : s.pktLen.toNat = 258 := hl.2 ho
        omega
    rw [h.pktBuf 0 (by omega), h.pktBuf 1 (by omega), h.pktBuf (s.pktLen.toNat - 1) (by omega), h.pktPayload]

theorem ObsEq.legal (h : ObsEq s s') (hl : s.Legal) : s'.Legal := by
  simpa only [State.Legal, State.EncLegal, State.PktLegal, State.DecLegal, h.encLen, h.encOvf, h.pktLen, h.pktOvf,
    h.decState, h.decExpLen, h.decCnt] using hl

theorem ObsEq.decPush (h : ObsEq s s') (b : Byte) :
    ObsEq (effect (.decPush b) s) (effect (.decPush b) s') := by
  simp only [effect, ← h.decState]
  cases s.decState with
  | awaitingHeader =>
    simp only [decPushHeader]
    split
    exacts [h.decGoto _, h.respondErr _]
  | awaitingLength =>
    simp only [decPushLength]
    split
    exacts [(h.withDecExpLen _).decGoto _, h.respondErr _]
  | awaitingData =>
    have ha := h.decAppend b
    simp only [decPushData, ha.decCnt, ha.decExpLen]
    exact ha.decGoto _
  | awaitingCrc =>
    simp only [decPushCrc, h.decPayload]
    split
    exacts [h.decGoto _, h.respondErr _]
  | ready => exact h.respondErr _

/-- R33: a command neither answers nor leaves observable what its unit's counter does not cover. -/
theorem effect_obsEq (i : Instr) (hl : s.Legal) (h : ObsEq s s') : ObsEq (effect i s) (effect i s') := by
  cases i with
  | crcInit => exact (h.withCrcAcc _).respond _ _
  | crcUpd b =>
    simp only [effect, ← h.crcAcc]
    exact (h.withCrcAcc _).respond _ _
  | crcRd =>
    simp only [effect, ← h.crcAcc]
    exact h.respond _ _
  | encInit => exact h.clearEnc.respond _ _
  | encPut b =>
    simp only [effect, State.EncHasRoom, ← h.encLen, ← h.encOvf]
    split
    exacts [(h.encAppend b).respond _ _, h.setEncOvf.respondErr _]
  | encLen =>
    simp only [effect, ← h.encLen, ← h.encOvf]
    split
    exacts [h.respondErr _, h.respond _ _]
  | encRd n =>
    simp only [effect, ← h.encLen, ← h.encOvf, ← h.encPacketByte]
    (repeat' split)
    exacts [h.respondErr _, h.respondErr _, h.respond _ _]
  | pktInit => exact h.clearPkt.respond _ _
  | pktPut b =>
    simp only [effect, State.PktHasRoom, ← h.pktLen]
    split
    exacts [(h.pktAppend b).respond _ _, h.setPktOvf.respond _ _]
  | pktChk =>
    simp only [effect, ← h.pktLen, ← h.pktVerdict hl.2.1]
    split
    exacts [h.respond _ _, h.respondErr _]
  | pktRd n =>
    simp only [effect, ← h.pktLen, ← h.pktVerdict hl.2.1]
    split
    · exact h.respondErr _
    split
    · exact h.respondErr _
    · rw [h.pktBuf _ (by unfold pktReadIndex; omega)]
      exact h.respond _ _
  | decInit => exact h.freshDec.respond _ _
  | decPush b => exact h.decPush b
  | decStat =>
    simp only [effect, ← h.decState]
    exact h.respond _ _
  | decLen =>
    simp only [effect, ← h.decCnt]
    exact h.respond _ _
  | decRd n =>
    simp only [effect, ← h.decState, ← h.decCnt]
    split
    · exact h.respondErr _
    split
    · exact h.respondErr _
    · rw [h.decBuf _ (by unfold decReadIndex; omega)]
      exact h.respond _ _

theorem transact_obsEq {w : CmdWord} {t : State} (h : ObsEq s s') (ht : transact w s = .next t) :
    ∃ t', transact w s' = .next t' ∧ ObsEq t t' := by
  obtain ⟨hl, ⟨i, hi, rfl⟩ | ⟨⟨e, he⟩, rfl⟩⟩ := transact_next ht
  · exact ⟨_, by rw [transact_of_decode_ok s' hi, exec_of_legal i (h.legal hl)], effect_obsEq i hl h⟩
  · exact ⟨_, by rw [transact_of_decode_error s' he, execReserved_of_legal (h.legal hl)], h.respondErr _⟩

theorem transactAll_obsEq {ws : List CmdWord} {t : State} (h : ObsEq s s') (ht : transactAll ws s = .next t) :
    ∃ t', transactAll ws s' = .next t' ∧ ObsEq t t' := by
  induction ws generalizing s s' with
  | nil => exact ⟨s', rfl, Host.Outcome.next.inj ht ▸ h⟩
  | cons w ws ih =>
    obtain ⟨u, hu, hws⟩ := transactAll_cons_next.1 ht
    obtain ⟨u', hu', hobs⟩ := transact_obsEq h hu
    obtain ⟨t', ht', hfin⟩ := ih hobs hws
    exact ⟨t', transactAll_cons_next.2 ⟨u', hu', ht'⟩, hfin⟩

end StaleBytes

/-! ### The obligations -/

/-- Settles O1: by the definition of the reset state. -/
theorem resetRegisterValues : Obligations.ResetRegisterValues := ⟨rfl, rfl, rfl, rfl, rfl, rfl, rfl, rfl, rfl⟩

/-- Settles O2: the counters and flags are zero and the buffers list nothing. -/
theorem resetMeetsTheInvariant : Obligations.ResetMeetsTheInvariant :=
  ⟨by decide, rfl, rfl, rfl, rfl, rfl, rfl⟩

/-- Settles O3: a step holds the state or makes one transaction, and a transaction keeps the invariant. -/
theorem stepKeepsTheInvariant : Obligations.StepKeepsTheInvariant := by
  intro s t h hs
  obtain ⟨-, rfl⟩ | ⟨w, ws, -, ht⟩ := step_next hs
  · exact h
  · exact transact_keeps_blockInv (s := { s with cmdIn := ws }) h ht

theorem decStateCode_le (d : DecState) : (decStateCode d).toNat ≤ 4 := by cases d <;> decide

/-- Settles O4: every reachable state is legal, which by this hardware's constants is R35's list. -/
theorem everyReachableStateMeetsTheInvariants : Obligations.EveryReachableStateMeetsTheInvariants := by
  intro s hs
  obtain ⟨⟨henc, heovf⟩, ⟨hpkt, hpovf⟩, hexp, hcnt, hidle, hdata, hdone⟩ := hs.legal
  exact ⟨henc, heovf, hpkt, hpovf, decStateCode_le _, hexp, hcnt, hidle, hdata, hdone⟩

/-- Settles O6: every meaning, the reserved answer included, stands behind the guard `onLegal`. -/
theorem unreachablePatternsAreRefused : Obligations.UnreachablePatternsAreRefused := by
  intro s hs
  have hexec (i : Instr) : exec i s = .refused .unreachableState := by
    rw [exec_eq_onLegal, onLegal_of_not_legal _ hs]
  refine ⟨hexec, fun w => ?_⟩
  cases hdec : decode w with
  | ok i => rw [transact_of_decode_ok s hdec, hexec]
  | error e => rw [transact_of_decode_error s hdec, execReserved, onLegal_of_not_legal _ hs]

/-- Settles O19: the frame of a command, and its effect amid two different rests of the block. -/
theorem unitsShareNoState : Obligations.UnitsShareNoState := by
  refine ⟨fun i s t ht u hu => ?_, fun i s s' t t' hsame _ _ ht ht' => ?_⟩
  · obtain ⟨-, rfl⟩ := exec_next ht
    exact effect_other_unit i s hu
  · obtain ⟨-, rfl⟩ := exec_next ht
    obtain ⟨-, rfl⟩ := exec_next ht'
    obtain ⟨st, d, hans, hgraft⟩ := effect_graft i s s'
    rw [graft_of_sameUnit hsame] at hgraft
    rw [hgraft]
    exact ⟨sameUnit_graft_respond _ _ _ _ _, st, d, hans, answers_graft_respond _ _ _ _ _⟩

/-- Settles O21: by who writes the framer's and the deframer's flag, with R35 for the counts at which they rise. -/
theorem overflowFlagsAreSticky : Obligations.OverflowFlagsAreSticky := by
  intro i s t ht
  obtain ⟨⟨henc, hpkt, -⟩, rfl⟩ := exec_next ht
  refine ⟨effect_encOvf_stays, effect_encOvf_rises henc, effect_pktOvf_stays, effect_pktOvf_rises hpkt, ?_, ?_, ?_⟩
  · rintro rfl
    rfl
  · rintro rfl
    rfl
  · intro ho hi
    rw [effect_encRead_of_ovf ho hi]
    exact ⟨rfl, rfl⟩

/-- Settles O22: by induction over the words, each transaction keeping `ObsEq`, which includes the responses. -/
theorem staleBufferBytesAreNeverObserved : Obligations.StaleBufferBytesAreNeverObserved :=
  fun _ _ _ _ _ h ht => transactAll_obsEq h ht

end Sys2Proof.Machine
end

section
/-! SUPPORT. The memory family: a command looks at its own unit's items only, never at the command port; so a transaction is
the same whatever words wait behind it (R60), and a read issued again answers again what it answered (R57). -/

namespace Sys2Proof.Machine

/-- R21: a command does the same, and answers the same, in any two blocks that hold the same in its unit. -/
theorem stepAlike_effect_of_sameUnit {i : Instr} {s o : State} (h : SameUnit i.unit s o) :
    StepAlike i.unit s o (effect i s) (effect i o) := by
  have hgraft := effect_graft i s o
  rwa [graft_of_sameUnit h] at hgraft

/-! ### The words that wait, and the order of transactions -/

theorem sameUnit_withCmdIn (u : UnitName) (s : State) (ws : List CmdWord) : SameUnit u s { s with cmdIn := ws } := by
  cases u <;> simp [SameUnit, SameCrc, SameEnc, SamePkt, SameDec]

/-- When from `s` to `t` one answer was given and only unit `u` changed, that answer and `t`'s unit `u`, put into `s` with
other words waiting, are `t` with those words waiting. -/
theorem graft_withCmdIn_respond {u : UnitName} {s t : State} {st : Status} {d : Byte} (ws : List CmdWord)
    (hframe : ∀ v, v ≠ u → SameUnit v s t) (hans : Answers s t st d) :
    (t.graft u { s with cmdIn := ws }).respond st d = { t with cmdIn := ws } := by
  have hcrc := hframe .crc
  have henc := hframe .enc
  have hpkt := hframe .pkt
  have hdec := hframe .dec
  cases u <;>
    simp_all [SameUnit, SameCrc, SameEnc, SamePkt, SameDec, Answers, State.graft, State.respond]

/-- No command reads or changes the words that wait. -/
theorem effect_withCmdIn (i : Instr) (s : State) (ws : List CmdWord) :
    effect i { s with cmdIn := ws } = { effect i s with cmdIn := ws } := by
  obtain ⟨st, d, hans, hother⟩ := stepAlike_effect_of_sameUnit (sameUnit_withCmdIn i.unit s ws)
  rw [hother, graft_withCmdIn_respond ws (fun v hv => effect_other_unit i s hv) hans]

theorem transact_withCmdIn {w : CmdWord} {s t : State} (ws : List CmdWord) (h : transact w s = .next t) :
    transact w { s with cmdIn := ws } = .next { t with cmdIn := ws } := by
  obtain ⟨hl, ⟨i, hi, rfl⟩ | ⟨⟨e, he⟩, rfl⟩⟩ := transact_next h
  · rw [transact_of_decode_ok _ hi, exec_of_legal i (hl.withCmdIn ws), effect_withCmdIn]
  · rw [transact_of_decode_error _ he, execReserved_of_legal (hl.withCmdIn ws)]
    rfl

theorem transact_cmdIn {w : CmdWord} {s t : State} (h : transact w s = .next t) : t.cmdIn = s.cmdIn := by
  obtain ⟨-, ⟨i, -, rfl⟩ | ⟨-, rfl⟩⟩ := transact_next h
  · obtain ⟨-, -, ⟨-, hcmd⟩, -⟩ := effect_answers i s
    exact hcmd
  · rfl

theorem core_run_succ_of_step {s t : State} (n : Nat) (h : step s = .next t) :
    Host.Core.run Sys2Proof.core (n + 1) s = Host.Core.run Sys2Proof.core n t := by
  simp only [Host.Core.run, Host.Check.core_step, h]

/-- R60: with `ws` sent ahead of the words that wait in `s`, as many steps as `ws` has words make its transactions. -/
theorem core_run_of_transactAll {ws : List CmdWord} {s t : State} (h : transactAll ws s = .next t) :
    Host.Core.run Sys2Proof.core ws.length { s with cmdIn := ws ++ s.cmdIn } = .next t := by
  induction ws generalizing s with
  | nil => exact h
  | cons w ws ih =>
    obtain ⟨u, hu, hws⟩ := transactAll_cons_next.1 h
    have hstep : step { s with cmdIn := w :: ws ++ s.cmdIn } = .next { u with cmdIn := ws ++ s.cmdIn } :=
      (step_of_cmdIn_cons rfl).trans (transact_withCmdIn (s := s) _ hu)
    rw [List.length_cons, core_run_succ_of_step _ hstep, ← transact_cmdIn hu]
    exact ih hws

/-! ### Reads and INITs issued twice -/

/-- R57: an earlier response changes nothing a read looks at, so a read that answered once answers the same again. -/
theorem effect_respond_of_effect_eq_respond {i : Instr} {s : State} {st : Status} {d : Byte}
    (h : effect i s = s.respond st d) : effect i (s.respond st d) = (s.respond st d).respond st d := by
  obtain ⟨st', d', ⟨hrsp, -⟩, hagain⟩ := stepAlike_effect_of_sameUnit (sameUnit_respond i.unit s st d)
  have hword : rspWord st d = rspWord st' d' := by simpa [h] using hrsp
  have hsame : (effect i s).graft i.unit (s.respond st d) = s.respond st d := by
    rw [h]
    cases i.unit <;> rfl
  rw [hagain, hsame]
  simp only [State.respond, hword]

/-- R57: an INIT sets its unit's registers to fixed values, so a second one only answers. -/
theorem effect_init_effect_init {i : Instr} (hi : i ∈ [Instr.crcInit, .encInit, .pktInit, .decInit]) (s : State) :
    effect i (effect i s) = (effect i s).respond .ok 0x00 := by
  simp only [List.mem_cons, List.not_mem_nil, or_false] at hi
  obtain rfl | rfl | rfl | rfl := hi <;> rfl

/-! ### The obligations -/

/-- Settles O8: by induction over the words; a step is the next word's transaction, whatever words wait behind it. -/
theorem stepsTakeTheHostsWordsInOrder : Obligations.StepsTakeTheHostsWordsInOrder :=
  fun _ _ _ _ h => core_run_of_transactAll h

/-- Settles O20: a read's effect is its response alone, and a response or an INIT leaves the next read or INIT nothing new. -/
theorem readsChangeNothingAndInitsAreIdempotent : Obligations.ReadsChangeNothingAndInitsAreIdempotent := by
  refine ⟨fun i s t hr ht => ?_, fun i s t u hi ht hu => ?_⟩
  · obtain ⟨hl, rfl⟩ := exec_next ht
    obtain ⟨st, d, he⟩ := effect_of_isRead s hr
    have hagain : exec i (effect i s) = .next ((effect i s).respond st d) := by
      rw [exec_of_legal i (effect_legal i hl), he, effect_respond_of_effect_eq_respond he]
    rw [he] at hagain ⊢
    exact ⟨st, d, ⟨rfl, rfl⟩, rfl, hagain⟩
  · obtain ⟨-, rfl⟩ := exec_next ht
    obtain ⟨-, rfl⟩ := exec_next hu
    rw [effect_init_effect_init hi]
    rfl

end Sys2Proof.Machine
end

section
/-! SUPPORT. The encoding family, words: the decoder row by row of R74, and that decoder and encoder are each other's
inverse as far as R71 allows; the responses every word gets (R72, R73, R75). -/

namespace Sys2Proof.Machine

/-! ### The rows of R74 -/

theorem selects_crcInit : Selects 0x00 (fun _ => .crcInit) := fun x => (by simp [decode] : decode (formatC 0 0 x) = _)
theorem selects_crcUpd : Selects 0x01 .crcUpd := fun x => (by simp [decode] : decode (formatC 0 1 x) = _)
theorem selects_crcRd : Selects 0x02 (fun _ => .crcRd) := fun x => (by simp [decode] : decode (formatC 0 2 x) = _)
theorem selects_encInit : Selects 0x10 (fun _ => .encInit) := fun x => (by simp [decode] : decode (formatC 1 0 x) = _)
theorem selects_encPut : Selects 0x11 .encPut := fun x => (by simp [decode] : decode (formatC 1 1 x) = _)
theorem selects_encLen : Selects 0x12 (fun _ => .encLen) := fun x => (by simp [decode] : decode (formatC 1 2 x) = _)
theorem selects_encRd : Selects 0x13 (fun x => .encRd x.toNat) :=
  fun x => (by simp [decode, operandIndex] : decode (formatC 1 3 x) = _)
theorem selects_pktInit : Selects 0x20 (fun _ => .pktInit) := fun x => (by simp [decode] : decode (formatC 2 0 x) = _)
theorem selects_pktPut : Selects 0x21 .pktPut := fun x => (by simp [decode] : decode (formatC 2 1 x) = _)
theorem selects_pktChk : Selects 0x22 (fun _ => .pktChk) := fun x => (by simp [decode] : decode (formatC 2 2 x) = _)
theorem selects_pktRd : Selects 0x23 (fun x => .pktRd x.toNat) :=
  fun x => (by simp [decode, operandIndex] : decode (formatC 2 3 x) = _)
theorem selects_decInit : Selects 0x30 (fun _ => .decInit) := fun x => (by simp [decode] : decode (formatC 3 0 x) = _)
theorem selects_decPush : Selects 0x31 .decPush := fun x => (by simp [decode] : decode (formatC 3 1 x) = _)
theorem selects_decStat : Selects 0x32 (fun _ => .decStat) := fun x => (by simp [decode] : decode (formatC 3 2 x) = _)
theorem selects_decLen : Selects 0x33 (fun _ => .decLen) := fun x => (by simp [decode] : decode (formatC 3 3 x) = _)
theorem selects_decRd : Selects 0x34 (fun x => .decRd x.toNat) :=
  fun x => (by simp [decode, operandIndex] : decode (formatC 3 4 x) = _)

/-! ### Decoder and encoder -/

/-- Decoding an encoded command gives it back: its word stands in its row of R74, and a well-formed index is the
unsigned value of its byte. -/
theorem decode_encode {i : Instr} (h : i.wf = true) : decode (encode i) = .ok i := by
  cases i with
  | crcInit => exact selects_crcInit 0x00
  | crcUpd b => exact selects_crcUpd b
  | crcRd => exact selects_crcRd 0x00
  | encInit => exact selects_encInit 0x00
  | encPut b => exact selects_encPut b
  | encLen => exact selects_encLen 0x00
  | encRd n => exact (selects_encRd (indexByte n)).trans (congrArg (Except.ok <| Instr.encRd ·) (toNat_indexByte h))
  | pktInit => exact selects_pktInit 0x00
  | pktPut b => exact selects_pktPut b
  | pktChk => exact selects_pktChk 0x00
  | pktRd n => exact (selects_pktRd (indexByte n)).trans (congrArg (Except.ok <| Instr.pktRd ·) (toNat_indexByte h))
  | decInit => exact selects_decInit 0x00
  | decPush b => exact selects_decPush b
  | decStat => exact selects_decStat 0x00
  | decLen => exact selects_decLen 0x00
  | decRd n => exact (selects_decRd (indexByte n)).trans (congrArg (Except.ok <| Instr.decRd ·) (toNat_indexByte h))

/-- R71: the encoder emits 0x00 where the operand is ignored. -/
theorem operandByte_encode_of_ignored {i : Instr} (h : i.operandUse = .ignored) : operandByte (encode i) = 0x00 := by
  cases i with
  | crcUpd _ | encPut _ | encRd _ | pktPut _ | pktRd _ | decPush _ | decRd _ => cases h
  | crcInit | crcRd | encInit | encLen | pktInit | pktChk | decInit | decStat | decLen => exact operandByte_formatC ..

/-- The index a word carries is below 256. -/
theorem indexFits_operandIndex (w : CmdWord) : indexFits (operandIndex w) = true :=
  decide_eq_true (operandByte w).isLt

/-- A decoded command is well-formed and its word is the decoded one, up to an operand that is ignored. -/
theorem encode_of_decode {w : CmdWord} {i : Instr} (h : decode w = .ok i) :
    i.wf = true ∧
    encode i = formatC (cmdUnit w) (cmdFunc w) (if i.operandUse = .ignored then 0x00 else operandByte w) := by
  unfold decode at h
  split at h <;> cases h
  all_goals
    rename_i hunit hfunc
    constructor
    · simp only [Instr.wf, indexFits_operandIndex]
    · simp only [encode, Instr.operandUse, operandIndex, indexByte_toNat, reduceCtorEq, if_true, if_false]
      congr 1
      exacts [(BitVec.eq_of_toNat_eq hunit).symm, (BitVec.eq_of_toNat_eq hfunc).symm]

theorem cmdOpcode_eq (w : CmdWord) : cmdOpcode w = cmdUnit w ++ cmdFunc w := by
  conv_lhs => rw [← formatC_fields w, cmdOpcode_formatC]

theorem cmdOpcode_encode_of_decode {w : CmdWord} {i : Instr} (h : decode w = .ok i) :
    cmdOpcode (encode i) = cmdOpcode w := by
  rw [(encode_of_decode h).2, cmdOpcode_formatC, cmdOpcode_eq]

/-! ### Which opcodes are commands -/

/-- The encoder's opcodes are R74's. -/
theorem cmdOpcode_encode_mem (i : Instr) : cmdOpcode (encode i) ∈ commandOpcodes := by
  cases i with
  | crcInit => exact Laws.Opcode.crcInit
  | crcUpd b => exact Laws.Opcode.crcUpd b
  | crcRd => exact Laws.Opcode.crcRd
  | encInit => exact Laws.Opcode.encInit
  | encPut b => exact Laws.Opcode.encPut b
  | encLen => exact Laws.Opcode.encLen
  | encRd n => exact Laws.Opcode.encRd n
  | pktInit => exact Laws.Opcode.pktInit
  | pktPut b => exact Laws.Opcode.pktPut b
  | pktChk => exact Laws.Opcode.pktChk
  | pktRd n => exact Laws.Opcode.pktRd n
  | decInit => exact Laws.Opcode.decInit
  | decPush b => exact Laws.Opcode.decPush b
  | decStat => exact Laws.Opcode.decStat
  | decLen => exact Laws.Opcode.decLen
  | decRd n => exact Laws.Opcode.decRd n

/-- R74: each of the sixteen opcodes is a command's, whatever the operand. -/
theorem decode_ok_of_mem_commandOpcodes {op : Byte} (h : op ∈ commandOpcodes) (x : Byte) :
    ∃ i, decode (op ++ x) = .ok i := by
  simp only [commandOpcodes, List.mem_cons, List.not_mem_nil, or_false] at h
  obtain rfl | rfl | rfl | rfl | rfl | rfl | rfl | rfl | rfl | rfl | rfl | rfl | rfl | rfl | rfl | rfl := h
  exacts [⟨_, selects_crcInit x⟩, ⟨_, selects_crcUpd x⟩, ⟨_, selects_crcRd x⟩, ⟨_, selects_encInit x⟩,
    ⟨_, selects_encPut x⟩, ⟨_, selects_encLen x⟩, ⟨_, selects_encRd x⟩, ⟨_, selects_pktInit x⟩, ⟨_, selects_pktPut x⟩,
    ⟨_, selects_pktChk x⟩, ⟨_, selects_pktRd x⟩, ⟨_, selects_decInit x⟩, ⟨_, selects_decPush x⟩, ⟨_, selects_decStat x⟩,
    ⟨_, selects_decLen x⟩, ⟨_, selects_decRd x⟩]

/-- A word is its opcode and its operand. -/
theorem cmdOpcode_append_operandByte (w : CmdWord) : cmdOpcode w ++ operandByte w = w := by
  rw [cmdOpcode_eq]
  exact formatC_fields w

/-- R74, R75: a word is a command exactly when its opcode is one of the sixteen. -/
theorem decode_ok_iff (w : CmdWord) : (∃ i, decode w = .ok i) ↔ cmdOpcode w ∈ commandOpcodes := by
  constructor
  · rintro ⟨i, hi⟩
    exact cmdOpcode_encode_of_decode hi ▸ cmdOpcode_encode_mem i
  · intro h
    obtain ⟨i, hi⟩ := decode_ok_of_mem_commandOpcodes h (operandByte w)
    exact ⟨i, cmdOpcode_append_operandByte w ▸ hi⟩

theorem decode_error_of_not_mem {w : CmdWord} (h : cmdOpcode w ∉ commandOpcodes) : ∃ e, decode w = .error e := by
  cases hdec : decode w with
  | ok i => exact absurd ((decode_ok_iff w).1 ⟨i, hdec⟩) h
  | error e => exact ⟨e, rfl⟩

/-! ### Responses -/

/-- R74: a command without a result answers 0x00. -/
theorem effect_answers_of_no_result {i : Instr} (h : hasResult i = false) (s : State) :
    ∃ st, Answers s (effect i s) st 0x00 := by
  cases i with
  | crcUpd _ | crcRd | encLen | encRd _ | pktChk | pktRd _ | decPush _ | decStat | decLen | decRd _ => cases h
  | crcInit | encInit | pktInit | decInit => exact ⟨.ok, rfl, rfl⟩
  | encPut b =>
    by_cases hr : s.EncHasRoom
    · exact ⟨.ok, by rw [effect_encPut_of_room b hr]; exact ⟨rfl, rfl⟩⟩
    · exact ⟨.lengthErr, by rw [effect_encPut_of_full b hr]; exact ⟨rfl, rfl⟩⟩
  | pktPut b =>
    refine ⟨.ok, ?_⟩
    rw [effect_pktPut_ite]
    split <;> exact ⟨rfl, rfl⟩

/-- R72, R73, R75: what one command word answers, with data 0x00 on an error and where the command has no result. -/
theorem transact_answers (w : CmdWord) {s : State} (h : s.Legal) : ∃ t st d, transact w s = .next t ∧ Answers s t st d ∧
    (st ≠ .ok → d = 0x00) ∧ ∀ i, decode w = .ok i → hasResult i = false → d = 0x00 := by
  cases hdec : decode w with
  | ok i =>
    obtain ⟨st, d, hans, herr⟩ := effect_answers i s
    refine ⟨_, st, d, by rw [transact_of_decode_ok s hdec, exec_of_legal i h], hans, herr, fun j hj hres => ?_⟩
    obtain rfl : i = j := Except.ok.inj hj
    obtain ⟨st', hans'⟩ := effect_answers_of_no_result hres s
    exact (hans.unique hans').2
  | error e =>
    exact ⟨s.respondErr .illegalCmd, .illegalCmd, 0x00,
      by rw [transact_of_decode_error s hdec, execReserved_of_legal h], ⟨rfl, rfl⟩, fun _ => rfl, fun _ _ _ => rfl⟩

/-! ### The obligations -/

/-- Settles O11: the encoder puts each command into its row of R74. -/
theorem decodeOfEncodeIsTheCommand : Obligations.DecodeOfEncodeIsTheCommand := fun _ => decode_encode

/-- Settles O12: the encoding has the decoded word's unit, function and, where it is used, operand. -/
theorem encodeOfDecodeIsTheWord : Obligations.EncodeOfDecodeIsTheWord := by
  intro w i h
  obtain ⟨hwf, henc⟩ := encode_of_decode h
  refine ⟨hwf, cmdOpcode_encode_of_decode h, fun huse => ?_⟩
  rw [henc, if_neg huse, formatC_fields]

/-- Settles O9: the sixteen rows of R74. -/
theorem operandsAreAssembledAsTheTableSays : Obligations.OperandsAreAssembledAsTheTableSays :=
  ⟨fun x => ⟨selects_crcInit x, selects_crcUpd x, selects_crcRd x, selects_encInit x, selects_encPut x, selects_encLen x,
    selects_encRd x, selects_pktInit x, selects_pktPut x, selects_pktChk x, selects_pktRd x, selects_decInit x,
    selects_decPush x, selects_decStat x, selects_decLen x, selects_decRd x⟩,
   fun _ => operandByte_encode_of_ignored⟩

/-- Settles O13: each word stands in its row of R74. -/
theorem writtenOutWordsDecode : Obligations.WrittenOutWordsDecode :=
  ⟨selects_crcUpd 0x31, selects_encRd 0x04, selects_pktPut 0xD5, selects_decInit 0x00, selects_decRd 0xFF⟩

/-- Settles O10: a word is a command exactly when its opcode is one of the sixteen; a reserved one only answers. -/
theorem reservedOpcodesAnswerIllegalCmd : Obligations.ReservedOpcodesAnswerIllegalCmd := by
  refine fun w => ⟨(decode_ok_iff w).2, fun hop => ?_⟩
  obtain ⟨e, he⟩ := decode_error_of_not_mem hop
  refine ⟨⟨e, he⟩, fun s hl => ?_⟩
  rw [transact_of_decode_error s he, execReserved_of_legal hl]
  rfl

/-- Settles O15: the answer of one command word, by the fields of a response word. -/
theorem everyResponseWordHasItsFields : Obligations.EveryResponseWordHasItsFields := by
  intro w s hl
  obtain ⟨t, st, d, ht, ⟨hrsp, -⟩, herr, hres⟩ := transact_answers w hl
  obtain ⟨hzero, hstatus, hdata⟩ := rspWord_fields st d
  exact ⟨t, rspWord st d, st, ht, hrsp, hzero, hstatus, fun h => hdata.trans (herr h),
    fun i hi hn => hdata.trans (hres i hi hn)⟩

/-- Settles O16: by the definition of the codes. -/
theorem statusCodesAreTheTable : Obligations.StatusCodesAreTheTable := ⟨rfl, rfl, rfl, rfl, rfl, rfl, rfl, rfl⟩

end Sys2Proof.Machine
end

section
/-! SUPPORT. The encoding family, pins: the transaction-level block a block with its ports stands for, and that an edge
without reset makes the transaction of the word it accepts and no other (R80, R81, R82). -/

namespace Sys2Proof.Machine

/-! ### A transaction reads no response given before -/

theorem sameUnit_withRspOut (u : UnitName) (s : State) (rs : List RspWord) : SameUnit u s { s with rspOut := rs } := by
  cases u <;> simp [SameUnit, SameCrc, SameEnc, SamePkt, SameDec]

/-- As `graft_withCmdIn_respond`, with other responses given before. -/
theorem graft_withRspOut_respond {u : UnitName} {s t : State} {st : Status} {d : Byte} (rs : List RspWord)
    (hframe : ∀ v, v ≠ u → SameUnit v s t) (hans : Answers s t st d) :
    (t.graft u { s with rspOut := rs }).respond st d = { t with rspOut := rs ++ [rspWord st d] } := by
  have hcrc := hframe .crc
  have henc := hframe .enc
  have hpkt := hframe .pkt
  have hdec := hframe .dec
  cases u <;>
    simp_all [SameUnit, SameCrc, SameEnc, SamePkt, SameDec, Answers, State.graft, State.respond]

theorem effect_withRspOut (i : Instr) (s : State) (rs : List RspWord) : ∃ st d, Answers s (effect i s) st d ∧
    effect i { s with rspOut := rs } = { effect i s with rspOut := rs ++ [rspWord st d] } := by
  obtain ⟨st, d, hans, hother⟩ := stepAlike_effect_of_sameUnit (sameUnit_withRspOut i.unit s rs)
  exact ⟨st, d, hans, hother.trans (graft_withRspOut_respond rs (fun v hv => effect_other_unit i s hv) hans)⟩

/-- A transaction appends one response and is the same whatever responses were given before. -/
theorem transact_withRspOut {w : CmdWord} {s t : State} (rs : List RspWord) (h : transact w s = .next t) :
    ∃ r, t.rspOut = s.rspOut ++ [r] ∧ transact w { s with rspOut := rs } = .next { t with rspOut := rs ++ [r] } := by
  obtain ⟨hl, ⟨i, hi, rfl⟩ | ⟨⟨e, he⟩, rfl⟩⟩ := transact_next h
  · obtain ⟨st, d, ⟨hrsp, -⟩, heff⟩ := effect_withRspOut i s rs
    have hl' : ({ s with rspOut := rs } : State).Legal := hl
    exact ⟨_, hrsp, by rw [transact_of_decode_ok _ hi, exec_of_legal i hl', heff]⟩
  · have hl' : ({ s with rspOut := rs } : State).Legal := hl
    exact ⟨_, rfl, by rw [transact_of_decode_error _ he, execReserved_of_legal hl']; rfl⟩

theorem transactAll_append_next {ws vs : List CmdWord} {s u : State} :
    transactAll (ws ++ vs) s = .next u ↔ ∃ t, transactAll ws s = .next t ∧ transactAll vs t = .next u := by
  induction ws generalizing s with
  | nil => simp [transactAll]
  | cons w ws ih =>
    simp only [List.cons_append, transactAll_cons_next, ih]
    constructor
    · rintro ⟨t, ht, v, hv, hu⟩
      exact ⟨v, ⟨t, ht, hv⟩, hu⟩
    · rintro ⟨v, ⟨t, ht, hv⟩, hu⟩
      exact ⟨t, ht, v, hv, hu⟩

/-! ### One edge -/

/-- R81: what accepting a word does: its transaction, the response held back for delivery. -/
theorem onAccept_next {p q : PortState} {w : CmdWord} (h : p.onAccept w = .next q) :
    ∃ t r, transact w p.core = .next t ∧ t.rspOut = p.core.rspOut ++ [r] ∧
      q.core = { t with rspOut := p.core.rspOut } ∧ q.phase = .answering r (Config.edges p.draws) := by
  unfold PortState.onAccept at h
  split at h
  · next u hu =>
    obtain ⟨r, hr, ht⟩ := transact_withRspOut p.core.rspOut hu
    cases h
    refine ⟨_, r, ht, rfl, rfl, ?_⟩
    simp [hr]
  · cases h
  · cases h

/-- R80, R81: what an edge without reset can do after the first reset: wait, holding the outstanding response if there is
one; accept the word offered; or deliver the outstanding response. -/
theorem clock_cases {p q : PortState} {i : PinsIn} (hrst : i.rst = false) (h : p.clock i = .next q) :
    (q.core = p.core ∧ p.accepts i = none ∧ p.delivers i = none ∧
      ((∃ n m, p.phase = .accepting n ∧ q.phase = .accepting m) ∨
       ∃ r n m, m ≤ n ∧ p.phase = .answering r n ∧ q.phase = .answering r m)) ∨
    (p.phase = .accepting 0 ∧ i.cmdValid = true ∧ p.onAccept i.cmd = .next q ∧
      p.accepts i = some i.cmd ∧ p.delivers i = none) ∨
    (∃ r, p.phase = .answering r 0 ∧ i.rspReady = true ∧ q = p.onDeliver r ∧
      p.accepts i = none ∧ p.delivers i = some r) := by
  simp only [PortState.clock, hrst, Bool.false_eq_true, if_false] at h
  unfold PortState.accepts PortState.delivers PortState.outputs
  split at h
  · cases h
  · next hp =>
    split at h
    · next hv => exact .inr (.inl ⟨hp, hv, h, by simp [hp, hrst, hv], by simp [hp]⟩)
    · next hv =>
      cases h
      exact .inl ⟨rfl, by simp [hv], by simp [hp], .inl ⟨0, 0, hp, hp⟩⟩
  · next n hp =>
    cases h
    exact .inl ⟨rfl, by simp [hp], by simp [hp], .inl ⟨n + 1, n, hp, rfl⟩⟩
  · next r hp =>
    split at h
    · next hv =>
      cases h
      exact .inr (.inr ⟨r, hp, hv, rfl, by simp [hp], by simp [hp, hrst, hv]⟩)
    · next hv =>
      cases h
      exact .inl ⟨rfl, by simp [hp], by simp [hv], .inr ⟨r, 0, 0, le_rfl, hp, hp⟩⟩
  · next r n hp =>
    cases h
    exact .inl ⟨rfl, by simp [hp], by simp [hp], .inr ⟨r, n + 1, n, by omega, hp, rfl⟩⟩

theorem rst_of_accepts {p : PortState} {i : PinsIn} {w : CmdWord} (h : p.accepts i = some w) : i.rst = false := by
  cases hr : i.rst with
  | false => rfl
  | true => simp [PortState.accepts, hr] at h

theorem accepts_of_answering {p : PortState} {r : RspWord} {n : Nat} (hp : p.phase = .answering r n) (i : PinsIn) :
    p.accepts i = none := by
  simp [PortState.accepts, PortState.outputs, hp]

/-- R221: nothing is ready or valid under `rst`. -/
theorem outputs_of_rst (p : PortState) : (p.outputs true).cmdReady = false ∧ (p.outputs true).rspValid = false := by
  unfold PortState.outputs
  split <;> exact ⟨rfl, rfl⟩

/-! ### The block behind the ports -/

/-- The response an outstanding command is still owed. -/
def Phase.owed : Phase → List RspWord
  | .answering r _ => [r]
  | .beforeReset | .accepting _ => []

/-- The transaction-level block a block with its ports stands for: as R81 (c) places a command's state change at its
acceptance, so its response counts as given although it is still owed at the pins. -/
def PortState.transacted (p : PortState) : State := { p.core with rspOut := p.core.rspOut ++ p.phase.owed }

theorem transacted_of_accepting {p : PortState} {n : Nat} (hp : p.phase = .accepting n) : p.transacted = p.core := by
  simp [PortState.transacted, hp, Phase.owed]

theorem transacted_congr {p q : PortState} (hc : q.core = p.core) (hp : q.phase.owed = p.phase.owed) :
    q.transacted = p.transacted := by
  simp only [PortState.transacted, hc, hp]

/-- R82 at one edge: the block behind the ports makes the transaction of the word accepted, if any, and the response
delivered, if any, is appended to those delivered. -/
theorem clock_refines {p q : PortState} {i : PinsIn} (hrst : i.rst = false) (h : p.clock i = .next q) :
    q.phase ≠ .beforeReset ∧ transactAll (p.accepts i).toList p.transacted = .next q.transacted ∧
      q.core.rspOut = p.core.rspOut ++ (p.delivers i).toList := by
  obtain ⟨hc, ha, hd, hphase⟩ | ⟨hp, -, hacc, ha, hd⟩ | ⟨r, hp, -, rfl, ha, hd⟩ := clock_cases hrst h
  · rw [ha, hd, hc]
    obtain ⟨n, m, hp, hq⟩ | ⟨r, n, m, -, hp, hq⟩ := hphase
    · exact ⟨by simp [hq], congrArg _ (transacted_congr hc (by rw [hp, hq]; rfl)).symm, by simp⟩
    · exact ⟨by simp [hq], congrArg _ (transacted_congr hc (by rw [hp, hq]; rfl)).symm, by simp⟩
  · obtain ⟨t, r, ht, hr, hcore, hq⟩ := onAccept_next hacc
    have hqt : q.transacted = t := by simp [PortState.transacted, hcore, hq, Phase.owed, ← hr]
    rw [ha, hd, hcore, transacted_of_accepting hp, hqt]
    exact ⟨by simp [hq], transactAll_cons_next.2 ⟨t, ht, rfl⟩, by simp⟩
  · rw [ha, hd]
    refine ⟨by simp [PortState.onDeliver], congrArg _ ?_, rfl⟩
    simp [PortState.transacted, PortState.onDeliver, hp, Phase.owed]

/-! ### Runs of edges -/

theorem run_cons_next {p : PortState} {i : PinsIn} {is : List PinsIn} {tr : PortTrace} (h : p.run (i :: is) = .next tr) :
    ∃ q tr', p.clock i = .next q ∧ q.run is = .next tr' ∧ tr.accepted = (p.accepts i).toList ++ tr'.accepted ∧
      tr.delivered = (p.delivers i).toList ++ tr'.delivered ∧ tr.last = tr'.last := by
  unfold PortState.run at h
  split at h
  · next q hq =>
    split at h
    · next tr' htr =>
      cases h
      exact ⟨q, tr', hq, htr, rfl, rfl, rfl⟩
    · cases h
    · cases h
  · cases h
  · cases h

/-- R82: over edges without reset the block behind the ports makes the transactions of the words accepted. -/
theorem run_refines {p : PortState} {is : List PinsIn} {tr : PortTrace} (hb : p.phase ≠ .beforeReset)
    (hrst : ∀ i ∈ is, i.rst = false) (h : p.run is = .next tr) :
    tr.last.phase ≠ .beforeReset ∧ transactAll tr.accepted p.transacted = .next tr.last.transacted ∧
      tr.last.core.rspOut = p.core.rspOut ++ tr.delivered := by
  induction is generalizing p tr with
  | nil =>
    cases h
    exact ⟨hb, rfl, by simp⟩
  | cons i is ih =>
    obtain ⟨q, tr', hq, hrun, hacc, hdel, hlast⟩ := run_cons_next h
    obtain ⟨hqb, hstep, hout⟩ := clock_refines (hrst i (by simp)) hq
    obtain ⟨hlb, htrans, hrest⟩ := ih hqb (fun j hj => hrst j (by simp [hj])) hrun
    rw [hlast, hacc, hdel]
    exact ⟨hlb, transactAll_append_next.2 ⟨_, hstep, htrans⟩, by rw [hrest, hout, List.append_assoc]⟩

/-! ### The obligations -/

/-- Settles O58: the block behind the ports is the simulation relation; what it gives beyond the delivered responses is the
one still owed. -/
theorem portsRefineTheTransactions : Obligations.PortsRefineTheTransactions := by
  intro p n is tr hp _ hrst hrun
  obtain ⟨hb, htrans, hout⟩ := run_refines (by simp [hp]) hrst hrun
  rw [transacted_of_accepting hp] at htrans
  refine ⟨tr.last.transacted, tr.last.phase.owed, htrans, ?_, by rw [← hout]; rfl, ?_⟩
  · rw [← List.append_assoc, ← hout]
    rfl
  · cases hl : tr.last.phase with
    | beforeReset => exact absurd hl hb
    | accepting m => exact .inl ⟨rfl, m, rfl⟩
    | answering r m => exact .inr ⟨r, m, rfl, rfl⟩

/-- Settles O56: the outputs by phase, and the edge by `clock_cases`. -/
theorem portHandshakeFollowsTheProtocol : Obligations.PortHandshakeFollowsTheProtocol := by
  refine ⟨outputs_of_rst, fun p q i w _ ha h => ?_, fun p i r n hp => accepts_of_answering hp i,
    fun p q i r n hp hrst h => ⟨fun hnone => ?_, fun d hd => ?_⟩⟩
  · have hrst := rst_of_accepts ha
    obtain ⟨-, hnone, -⟩ | ⟨hp, hv, hacc, hsome, -⟩ | ⟨r, -, -, -, hnone, -⟩ := clock_cases hrst h
    · simp [hnone] at ha
    · obtain ⟨t, r, -, -, hcore, hq⟩ := onAccept_next hacc
      exact ⟨hp, hrst, hv, Option.some.inj (ha.symm.trans hsome), ⟨r, _, hq⟩, by rw [hcore]⟩
    · simp [hnone] at ha
  · obtain ⟨hc, -, -, ⟨k, m, hk, -⟩ | ⟨r', k, m, hm, hk, hq⟩⟩ | ⟨hk, -⟩ | ⟨r', -, -, -, -, hsome⟩ := clock_cases hrst h
    · simp [hp] at hk
    · obtain ⟨rfl, rfl⟩ := Phase.answering.inj (hp.symm.trans hk)
      exact ⟨⟨m, hm, hq⟩, hc⟩
    · simp [hp] at hk
    · simp [hnone] at hsome
  · obtain ⟨-, -, hnone, -⟩ | ⟨hk, -⟩ | ⟨r', hk, hv, rfl, -, hsome⟩ := clock_cases hrst h
    · simp [hnone] at hd
    · simp [hp] at hk
    · obtain ⟨rfl, rfl⟩ := Phase.answering.inj (hp.symm.trans hk)
      exact ⟨rfl, Option.some.inj (hd.symm.trans hsome), hv, ⟨_, rfl⟩, rfl⟩

end Sys2Proof.Machine
end

section
/-! SUPPORT. The encoding family, assembler lines: a line the disassembler writes is made of the command's mnemonic and its
operand in hexadecimal, and the assembler cuts and reads it back (R78). -/

namespace Sys2Proof.Machine

/-! ### Words and lines of characters -/

/-- A character that is part of a word: no separator, no start of a comment, no end of a line. -/
def wordChar (c : Char) : Bool := c != ' ' && c != '\t' && c != ';' && c != '\n'

/-- A non-empty run of word characters. -/
def IsWord (w : List Char) : Prop := w ≠ [] ∧ w.all wordChar = true

theorem not_mem_of_all_wordChar {w : List Char} (h : w.all wordChar = true) {c : Char} (hc : wordChar c = false) :
    c ∉ w := fun hm => by
  rw [List.all_eq_true.1 h c hm] at hc
  cases hc

theorem stripComment_of_not_mem {cs : List Char} (h : ';' ∉ cs) : stripComment cs = cs := by
  induction cs with
  | nil => rfl
  | cons c cs ih =>
    obtain ⟨hc, hcs⟩ := not_or.1 (mt List.mem_cons.2 h)
    rw [stripComment, if_neg (Ne.symm hc), ih hcs]

theorem asmLines_of_not_mem {cs : List Char} (h : '\n' ∉ cs) (cur : List Char) : asmLines cur cs = [cur ++ cs] := by
  induction cs generalizing cur with
  | nil => simp [asmLines]
  | cons c cs ih =>
    obtain ⟨hc, hcs⟩ := not_or.1 (mt List.mem_cons.2 h)
    rw [asmLines, if_neg (Ne.symm hc), ih hcs, List.append_assoc, List.singleton_append]

/-- A word is read whole before what follows it. -/
theorem asmWords_append {w : List Char} (h : w.all wordChar = true) (cur rest : List Char) :
    asmWords cur (w ++ rest) = asmWords (cur ++ w) rest := by
  induction w generalizing cur with
  | nil => simp
  | cons c w ih =>
    obtain ⟨hc, hw⟩ : wordChar c = true ∧ w.all wordChar = true := by simpa using h
    have hsep : ¬ (c = ' ' ∨ c = '\t') := by
      rintro (rfl | rfl) <;> cases hc
    rw [List.cons_append, asmWords, if_neg hsep, ih hw, List.append_assoc, List.singleton_append]

theorem asmWords_word {w : List Char} (h : IsWord w) : asmWords [] w = [w] := by
  simpa [asmWords, h.1] using asmWords_append h.2 [] []

theorem asmWords_two_words {v w : List Char} (hv : IsWord v) (hw : IsWord w) : asmWords [] (v ++ ' ' :: w) = [v, w] := by
  rw [asmWords_append hv.2, List.nil_append, asmWords, if_pos (.inl rfl), if_neg hv.1, asmWords_word hw]

/-! ### What the disassembler writes -/

theorem isWord_mnemonic (i : Instr) : IsWord (mnemonic i) := by
  cases i <;> exact ⟨List.cons_ne_nil _ _, rfl⟩

theorem hexChar_of_lt {d : Nat} (h : d < 16) : hexDigit (hexChar d) = some d ∧ wordChar (hexChar d) = true := by
  revert d
  decide

theorem isWord_hexText {n : Nat} (h : n < 256) : IsWord (hexText n) := by
  have hhi := (hexChar_of_lt (d := n / 16) (by omega)).2
  have hlo := (hexChar_of_lt (d := n % 16) (by omega)).2
  have h0x : wordChar '0' = true ∧ wordChar 'x' = true := by decide
  exact ⟨List.cons_ne_nil _ _, by simp [hexText, hhi, hlo, h0x]⟩

/-- The two hexadecimal digits of a byte are read back. -/
theorem asmOperand_hexText {n : Nat} (h : n < 256) : asmOperand (hexText n) = some n := by
  have hhi := (hexChar_of_lt (d := n / 16) (by omega)).1
  have hlo := (hexChar_of_lt (d := n % 16) (by omega)).1
  have hn : n / 16 * 16 + n % 16 = n := by omega
  simp [asmOperand, hexText, digitsFrom, digitOf, hhi, hlo, hn, h, Nat.mod_lt, show n / 16 < 16 by omega]

/-- The line of a command: its mnemonic, and its operand in hexadecimal where it takes one. -/
theorem disassemble_cases {i : Instr} (h : i.wf = true) :
    (i.operandUse = .ignored ∧ i ∈ commandsWith 0 ∧ disassemble i = mnemonic i) ∨
    (i.operandUse ≠ .ignored ∧ ∃ n < 256, i ∈ commandsWith n ∧ disassemble i = mnemonic i ++ ' ' :: hexText n) := by
  cases i with
  | crcInit | crcRd | encInit | encLen | pktInit | pktChk | decInit | decStat | decLen =>
    exact .inl ⟨rfl, by simp [commandsWith], rfl⟩
  | crcUpd b | encPut b | pktPut b | decPush b =>
    exact .inr ⟨by simp [Instr.operandUse], b.toNat, b.isLt, by simp [commandsWith], rfl⟩
  | encRd n | pktRd n | decRd n =>
    exact .inr ⟨by simp [Instr.operandUse], n, of_decide_eq_true h, by simp [commandsWith], rfl⟩

/-! ### Reading a line back -/

theorem findCommand_mnemonic {n : Nat} {i : Instr} (h : i ∈ commandsWith n) : findCommand (mnemonic i) n = some i := by
  simp only [commandsWith, List.mem_cons, List.not_mem_nil, or_false] at h
  obtain rfl | rfl | rfl | rfl | rfl | rfl | rfl | rfl | rfl | rfl | rfl | rfl | rfl | rfl | rfl | rfl := h <;> rfl

/-- Whatever its operand, a mnemonic names a command that uses its operand alike. -/
theorem findCommand_mnemonic_operandUse (i : Instr) (n : Nat) :
    ∃ j, findCommand (mnemonic i) n = some j ∧ j.operandUse = i.operandUse := by
  cases i <;> exact ⟨_, rfl, rfl⟩

theorem assembleLine_disassemble {i : Instr} (h : i.wf = true) : assembleLine (disassemble i) = .ok (some i) := by
  have hm := isWord_mnemonic i
  obtain ⟨huse, hi, hline⟩ | ⟨huse, n, hn, hi, hline⟩ := disassemble_cases h
  · have hstrip := stripComment_of_not_mem (not_mem_of_all_wordChar hm.2 (c := ';') rfl)
    simp only [hline, assembleLine, hstrip, asmWords_word hm, findCommand_mnemonic hi, huse, if_true]
  · have ho := isWord_hexText hn
    have hstrip : ';' ∉ mnemonic i ++ ' ' :: hexText n := by
      simp [not_mem_of_all_wordChar hm.2 (c := ';') rfl, not_mem_of_all_wordChar ho.2 (c := ';') rfl]
    obtain ⟨j, hj, hjuse⟩ := findCommand_mnemonic_operandUse i 0
    simp only [hline, assembleLine, stripComment_of_not_mem hstrip, asmWords_two_words hm ho, hj, hjuse, huse, if_false,
      asmOperand_hexText hn, findCommand_mnemonic hi]

theorem disassemble_no_newline {i : Instr} (h : i.wf = true) : '\n' ∉ disassemble i := by
  have hm := not_mem_of_all_wordChar (isWord_mnemonic i).2 (c := '\n') rfl
  obtain ⟨-, -, hline⟩ | ⟨-, n, hn, -, hline⟩ := disassemble_cases h
  · rwa [hline]
  · simp [hline, hm, not_mem_of_all_wordChar (isWord_hexText hn).2 (c := '\n') rfl]

/-- A text of one command assembles to its word. -/
theorem assemble_disassemble {i : Instr} (h : i.wf = true) : assemble (disassemble i) = .ok [encode i] := by
  simp only [assemble, asmLines_of_not_mem (disassemble_no_newline h), List.nil_append, assembleLines,
    assembleLine_disassemble h]

/-! ### The obligations -/

/-- Settles O14: a written line is read back; R78's two examples are what the disassembler writes for their commands. -/
theorem assemblerReadsWhatItWrites : Obligations.AssemblerReadsWhatItWrites :=
  ⟨fun _ => assembleLine_disassemble, assemble_disassemble (i := .crcUpd 0x31) rfl,
   assemble_disassemble (i := .decInit) rfl⟩

end Sys2Proof.Machine
end

section
/-! SUPPORT. The encoding family, pseudo-instructions: what a sequence of commands leaves in each unit that gathers bytes
(R107, R126, R143), and the reads that give it back (R79). -/

namespace Sys2Proof.Machine

/-! ### Sequences of effects -/

/-- The effects of a sequence of commands, in the order sent. -/
def effects (is : List Instr) (s : State) : State := is.foldl (fun t i => effect i t) s

theorem effects_cons (i : Instr) (is : List Instr) (s : State) : effects (i :: is) s = effects is (effect i s) := rfl

theorem effects_concat (is : List Instr) (i : Instr) (s : State) : effects (is ++ [i]) s = effect i (effects is s) :=
  List.foldl_concat ..

theorem effects_legal (is : List Instr) {s : State} (h : s.Legal) : (effects is s).Legal := by
  induction is generalizing s with
  | nil => exact h
  | cons i is ih => exact ih (effect_legal i h)

/-- In a legal state a sequence of commands runs as its effects. -/
theorem execAll_eq_effects (is : List Instr) {s : State} (h : s.Legal) : execAll is s = .next (effects is s) := by
  induction is generalizing s with
  | nil => rfl
  | cons i is ih => exact execAll_cons_next.2 ⟨_, exec_of_legal i h, ih (effect_legal i h)⟩

/-- A unit gathers bytes: when every command but `init` adds the byte it carries to what the unit holds, a sequence without
`init` adds all its bytes in order. -/
theorem effects_gather {Holds : List Byte → State → Prop} {init : Instr} {byte : Instr → Option Byte}
    (hstep : ∀ {p i s}, i ≠ init → Holds p s → Holds (p ++ (byte i).toList) (effect i s)) {is : List Instr}
    (hinit : init ∉ is) {p : List Byte} {s : State} (h : Holds p s) :
    Holds (p ++ is.filterMap byte) (effects is s) := by
  induction is generalizing p s with
  | nil => simpa [effects] using h
  | cons i is ih =>
    obtain ⟨hi, his⟩ := not_or.1 (mt List.mem_cons.2 hinit)
    have hbytes : p ++ (i :: is).filterMap byte = p ++ (byte i).toList ++ is.filterMap byte := by
      cases hb : byte i <;> simp [hb]
    rw [hbytes]
    exact ih his (hstep (Ne.symm hi) h)

/-! ### The commands that carry bytes -/

theorem crcUpdByte_eq_some {i : Instr} {b : Byte} : crcUpdByte i = some b ↔ i = .crcUpd b := by
  cases i <;> simp [crcUpdByte]

theorem encPutByte_eq_some {i : Instr} {b : Byte} : encPutByte i = some b ↔ i = .encPut b := by
  cases i <;> simp [encPutByte]

theorem pktPutByte_eq_some {i : Instr} {b : Byte} : pktPutByte i = some b ↔ i = .pktPut b := by
  cases i <;> simp [pktPutByte]

/-- The bytes of a run of commands that each carry one. -/
theorem filterMap_map_of_carries {byte : Instr → Option Byte} {put : Byte → Instr} (h : ∀ b, byte (put b) = some b)
    (bs : List Byte) : (bs.map put).filterMap byte = bs := by
  rw [List.filterMap_map, funext h (f := byte ∘ put), List.filterMap_some]

/-! ### The CRC unit (R107) -/

theorem effect_crc_cases (i : Instr) (s : State) : SameCrc s (effect i s) ∨ i = .crcInit ∨ ∃ b, i = .crcUpd b := by
  refine (effect_sameUnit_or_writer i .crc s).imp_right fun ⟨hr, hu⟩ => ?_
  cases i <;> simp [isRead, Instr.unit] at hr hu ⊢

/-- R107: every command but CRC.INIT folds the byte it carries into the accumulator. -/
theorem effect_crcAcc {a : Byte} {p : List Byte} {i : Instr} {s : State} (hi : i ≠ .crcInit)
    (h : s.crcAcc = crcFold a p) : (effect i s).crcAcc = crcFold a (p ++ (crcUpdByte i).toList) := by
  cases hb : crcUpdByte i with
  | none =>
    obtain hsame | rfl | ⟨b, rfl⟩ := effect_crc_cases i s
    · rw [hsame, h, Option.toList_none, List.append_nil]
    · exact absurd rfl hi
    · cases hb
  | some b =>
    obtain rfl := crcUpdByte_eq_some.1 hb
    rw [crcFold_append, ← h]
    rfl

theorem effects_crcAcc {is : List Instr} (hinit : .crcInit ∉ is) (s : State) :
    (effects is s).crcAcc = crcFold s.crcAcc (is.filterMap crcUpdByte) :=
  effects_gather (Holds := fun p t => t.crcAcc = crcFold s.crcAcc p) (p := []) effect_crcAcc hinit rfl

/-! ### The framer (R126) -/

/-- The framer was given the payload `p` since its last ENC.INIT: it holds at most the first 32 bytes, and the flag says
whether there were more. -/
def EncHolds (p : List Byte) (s : State) : Prop := s.encPayload = p.take 32 ∧ s.encOvf = decide (32 < p.length)

theorem EncHolds.encLen {p : List Byte} {s : State} (h : EncHolds p s) : s.encLen.toNat = min 32 p.length := by
  simpa [State.encPayload] using congrArg List.length h.1

theorem EncHolds.congr {p : List Byte} {s t : State} (hst : SameEnc s t) (h : EncHolds p s) : EncHolds p t := by
  obtain ⟨hb, hl, ho⟩ := hst
  simpa only [EncHolds, State.encPayload, hb, hl, ho] using h

theorem encHolds_encInit (s : State) : EncHolds [] (effect .encInit s) := ⟨rfl, rfl⟩

theorem encPayload_encAppend (b : Byte) {s : State} (h : s.encLen.toNat < 32) :
    (s.encAppend b).encPayload = s.encPayload ++ [b] := by
  simp only [State.encPayload, State.encAppend_encBuf, State.encAppend_encLen, encLen_succ h, Memory.slice_write_end]

theorem EncHolds.encPut {p : List Byte} {s : State} (h : EncHolds p s) (b : Byte) :
    EncHolds (p ++ [b]) (effect (.encPut b) s) := by
  have hlen := h.encLen
  obtain ⟨hpay, hovf⟩ := h
  by_cases hr : s.EncHasRoom
  · obtain ⟨-, hlt⟩ := id hr
    rw [encCap_eq] at hlt
    have hp : p.length < 32 := by omega
    rw [effect_encPut_of_room b hr]
    refine ⟨?_, ?_⟩
    · show (s.encAppend b).encPayload = _
      rw [encPayload_encAppend b hlt, hpay, List.take_of_length_le (by omega), List.take_of_length_le (by simp; omega)]
    · simp [hovf]; omega
  · have hp : 32 ≤ p.length := by
      by_contra hlt
      exact hr ⟨by simp [hovf]; omega, by rw [encCap_eq]; omega⟩
    rw [effect_encPut_of_full b hr]
    refine ⟨?_, ?_⟩
    · show s.encPayload = _
      rw [hpay, List.take_append_of_le_length hp]
    · simp; omega

/-- R126: every command but ENC.INIT adds the byte it carries to the payload. -/
theorem EncHolds.effect {p : List Byte} {i : Instr} {s : State} (hi : i ≠ .encInit) (h : EncHolds p s) :
    EncHolds (p ++ (encPutByte i).toList) (effect i s) := by
  cases hb : encPutByte i with
  | none =>
    obtain hsame | rfl | ⟨b, rfl⟩ := effect_enc_cases i s
    · simpa using h.congr hsame
    · exact absurd rfl hi
    · cases hb
  | some b =>
    obtain rfl := encPutByte_eq_some.1 hb
    exact h.encPut b

/-- R120: a packet is made of a payload of at most 32 bytes. -/
theorem encodePacket_ok {p k : List Byte} (h : encodePacket p = .ok k) :
    p.length ≤ 32 ∧ k = 0xD5 :: BitVec.ofNat 8 p.length :: (p ++ [crc8 p]) := by
  rw [encodePacket_eq] at h
  split at h
  · cases h
  · next hp => exact ⟨by omega, (Except.ok.inj h).symm⟩

theorem length_of_encodePacket_ok {p k : List Byte} (h : encodePacket p = .ok k) : k.length = p.length + 3 := by
  simp [(encodePacket_ok h).2]

theorem encodePacket_error {p : List Byte} {e : Status} (h : encodePacket p = .error e) :
    32 < p.length ∧ e = .lengthErr := by
  rw [encodePacket_eq] at h
  split at h
  · next hp => exact ⟨hp, (Except.error.inj h).symm⟩
  · cases h

/-- R123, without overflow: the packet's length. -/
theorem EncHolds.effect_encLen_ok {p k : List Byte} {s : State} (h : EncHolds p s) (hk : encodePacket p = .ok k) :
    Machine.effect .encLen s = s.respond .ok (lenByte k.length) := by
  have hlen := h.encLen
  have hp := (encodePacket_ok hk).1
  simp only [Machine.effect, h.2, decide_eq_true_eq]
  rw [if_neg (by omega), hlen, min_eq_right hp, length_of_encodePacket_ok hk]

/-- R123, after an overflow. -/
theorem EncHolds.effect_encLen_error {p : List Byte} {e : Status} {s : State} (h : EncHolds p s)
    (he : encodePacket p = .error e) : Machine.effect .encLen s = s.respondErr e := by
  obtain ⟨hp, rfl⟩ := encodePacket_error he
  exact if_pos (h.2.trans (decide_eq_true hp))

/-- R125: `enc_packet` reads the header, the length, the payload and its check byte. -/
theorem packet_getElem? {s : State} {i : Nat} (hi : i < s.encLen.toNat + 3) :
    ((0xD5 : Byte) :: lenByte s.encLen.toNat :: (s.encPayload ++ [crc8 s.encPayload]))[i]? = some (encPacketByte s i) := by
  match i with
  | 0 => rfl
  | 1 => rfl
  | j + 2 =>
    have hplen : s.encPayload.length = s.encLen.toNat := by simp [State.encPayload]
    simp only [List.getElem?_cons_succ, encPacketByte, encReadIndex, Nat.add_sub_cancel]
    by_cases hj : j < s.encLen.toNat
    · rw [List.getElem?_append_left (by omega), if_neg (by omega), if_neg (by omega), if_pos (by omega)]
      exact Memory.slice_getElem? _ hj
    · have hje : j - s.encPayload.length = 0 := by omega
      rw [List.getElem?_append_right (by omega), if_neg (by omega), if_neg (by omega), if_neg (by omega), hje]
      rfl

/-- R125: the bytes ENC.RD reads are those of the packet `encode` makes. -/
theorem EncHolds.effect_encRd {p k : List Byte} {s : State} (h : EncHolds p s) (hk : encodePacket p = .ok k) {i : Nat}
    {b : Byte} (hb : k[i]? = some b) : Machine.effect (.encRd i) s = s.respond .ok b := by
  obtain ⟨hp, rfl⟩ := encodePacket_ok hk
  have hlen : s.encLen.toNat = p.length := by rw [h.encLen, min_eq_right hp]
  have hpay : s.encPayload = p := by rw [h.1, List.take_of_length_le hp]
  have hovf : ¬ 32 < p.length := Nat.not_lt.2 hp
  have hi : i < p.length + 3 := by simpa [Nat.lt_succ_iff] using (List.getElem?_eq_some_iff.1 hb).1
  have hbyte : encPacketByte s i = b := by
    have hread := packet_getElem? (s := s) (i := i) (by omega)
    rw [hpay, hlen] at hread
    exact Option.some.inj (hread.symm.trans hb)
  simp only [Machine.effect, h.2, hovf, hlen, hbyte, decide_false, Bool.false_eq_true, if_false]
  rw [if_neg (by omega)]

/-! ### The deframer (R143) -/

/-- The deframer was given the packet `k` since its last PKT.INIT: it holds at most the first 258 bytes, and the flag says
whether there were more. -/
def PktHolds (k : List Byte) (s : State) : Prop := s.pktPacket = k.take 258 ∧ s.pktOvf = decide (258 < k.length)

theorem PktHolds.pktLen {k : List Byte} {s : State} (h : PktHolds k s) : s.pktLen.toNat = min 258 k.length := by
  simpa [State.pktPacket] using congrArg List.length h.1

theorem PktHolds.congr {k : List Byte} {s t : State} (hst : SamePkt s t) (h : PktHolds k s) : PktHolds k t := by
  obtain ⟨hb, hl, ho⟩ := hst
  simpa only [PktHolds, State.pktPacket, hb, hl, ho] using h

theorem pktHolds_pktInit (s : State) : PktHolds [] (effect .pktInit s) := ⟨rfl, rfl⟩

theorem pktPacket_pktAppend (b : Byte) {s : State} (h : s.pktLen.toNat < 258) :
    (s.pktAppend b).pktPacket = s.pktPacket ++ [b] := by
  simp only [State.pktPacket, State.pktAppend_pktBuf, State.pktAppend_pktLen, pktLen_succ h, Memory.slice_write_end]

theorem PktHolds.pktPut {k : List Byte} {s : State} (h : PktHolds k s) (b : Byte) :
    PktHolds (k ++ [b]) (effect (.pktPut b) s) := by
  have hlen := h.pktLen
  obtain ⟨hpkt, hovf⟩ := h
  by_cases hr : s.pktLen.toNat < 258
  · have hk : k.length < 258 := by omega
    rw [effect_pktPut_of_room b hr]
    refine ⟨?_, ?_⟩
    · show (s.pktAppend b).pktPacket = _
      rw [pktPacket_pktAppend b hr, hpkt, List.take_of_length_le (by omega), List.take_of_length_le (by simp; omega)]
    · simp [hovf]; omega
  · have hk : 258 ≤ k.length := by omega
    rw [effect_pktPut_of_full b hr]
    refine ⟨?_, ?_⟩
    · show s.pktPacket = _
      rw [hpkt, List.take_append_of_le_length hk]
    · simp; omega

/-- R143: every command but PKT.INIT adds the byte it carries to the packet. -/
theorem PktHolds.effect {k : List Byte} {i : Instr} {s : State} (hi : i ≠ .pktInit) (h : PktHolds k s) :
    PktHolds (k ++ (pktPutByte i).toList) (effect i s) := by
  cases hb : pktPutByte i with
  | none =>
    obtain hsame | rfl | ⟨b, rfl⟩ := effect_pkt_cases i s
    · simpa using h.congr hsame
    · exact absurd rfl hi
    · cases hb
  | some b =>
    obtain rfl := pktPutByte_eq_some.1 hb
    exact h.pktPut b

theorem PktHolds.read {k : List Byte} {s : State} (h : PktHolds k s) {a : Nat} (ha : a < s.pktLen.toNat) :
    s.pktBuf.read a = k.getD a 0 := by
  have hlen := h.pktLen
  have hget : (s.pktPacket)[a]? = some (s.pktBuf.read a) := Memory.slice_getElem? _ ha
  rw [h.1, List.getElem?_take_of_lt (by omega)] at hget
  rw [List.getD_eq_getElem?_getD, hget, Option.getD_some]

/-- A slice inside the filled part. -/
theorem Memory.seqSlice_slice (m : Memory) {lo hi n : Nat} (h : hi ≤ n) :
    seqSlice (m.slice 0 n) lo hi = m.slice lo hi := by
  refine List.ext_getElem (by simp [seqSlice]; omega) fun i hi hi' => ?_
  simp [seqSlice, Memory.slice]

/-- R143: the verdict is `decode`'s result, even of a packet longer than the buffer, whose length byte cannot be right. -/
theorem PktHolds.decodePacket {k : List Byte} {s : State} (h : PktHolds k s) :
    decodePacket k = if pktVerdict s = .ok then .ok s.pktPayload else .error (pktVerdict s) := by
  have hlen := h.pktLen
  have hovf := h.2
  rw [decodePacket_eq, pktVerdict_eq]
  by_cases hlong : 258 < k.length
  · have hread := h.read (a := 0) (by omega)
    have hbyte := (k.getD 1 0).isLt
    rw [if_neg (by omega), if_neg (show ¬ (k.getD 1 0).toNat = k.length - 3 by omega)]
    simp only [hovf, hlong, hread, decide_true, Bool.true_eq_false, false_and, if_false, true_or, if_true]
    split <;> rfl
  · have hlen' : s.pktLen.toNat = k.length := by omega
    have hovf' : s.pktOvf = false := by simpa [hlong] using hovf
    by_cases hshort : k.length < 4
    · simp [hovf', hlen', hshort]
    · have hpay : s.pktPayload = seqSlice k 2 (k.length - 1) := by
        have hpkt : k = s.pktBuf.slice 0 k.length := by
          rw [← hlen', ← State.pktPacket, h.1, List.take_of_length_le (by omega)]
        rw [State.pktPayload, hlen', ← Memory.seqSlice_slice _ (Nat.sub_le k.length 1), ← hpkt]
      rw [h.read (by omega), h.read (by omega), h.read (by omega), hlen', hpay]
      simp only [hovf', hshort, and_false, if_false, Bool.false_eq_true, false_or, ne_eq, ite_not]
      by_cases hheader : k.getD 0 0 = 0xD5
      · by_cases hbyte : (k.getD 1 0).toNat = k.length - 3
        · by_cases hcrc : k.getD (k.length - 1) 0 = crc8 (seqSlice k 2 (k.length - 1)) <;>
            simp only [hheader, hbyte, hcrc, if_true, if_false, reduceCtorEq]
        · simp only [hheader, hbyte, if_true, if_false, reduceCtorEq]
      · simp only [hheader, if_false, reduceCtorEq]

/-! ### Reads -/

/-- A read gives the same whatever was answered before it. -/
theorem effect_respond_of_read {i : Instr} {s : State} {st : Status} {d : Byte} (h : effect i s = s.respond st d)
    (st' : Status) (d' : Byte) : effect i (s.respond st' d') = (s.respond st' d').respond st d := by
  obtain ⟨st₂, d₂, ⟨hrsp, -⟩, heff⟩ := stepAlike_effect_of_sameUnit (sameUnit_respond i.unit s st' d')
  obtain ⟨rfl, rfl⟩ : st = st₂ ∧ d = d₂ := rspWord_inj.1 (by simpa [h] using hrsp)
  have hsame : (effect i s).graft i.unit (s.respond st' d') = s.respond st' d' := by
    rw [h]
    cases i.unit <;> rfl
  rw [heff, hsame]

/-- Reads issued one after another answer what each would answer alone. -/
theorem effects_reads_rspOut {is : List Instr} {ds : List Byte} {s : State}
    (h : List.Forall₂ (fun i d => effect i s = s.respond .ok d) is ds) :
    (effects is s).rspOut = s.rspOut ++ ds.map (rspWord .ok) := by
  induction is generalizing ds s with
  | nil =>
    cases h
    simp [effects]
  | cons i is ih =>
    obtain ⟨d, ds, hi, his, rfl⟩ := List.forall₂_cons_left_iff.1 h
    have hrest := ih (s := s.respond .ok d) (his.imp fun j e hj => effect_respond_of_read hj .ok d)
    rw [effects_cons, hi, hrest]
    simp

/-- Reads of the indices 0, 1, … answer the bytes in order. -/
theorem effects_indexed_reads_rspOut {read : Nat → Instr} {ds : List Byte} {s : State}
    (h : ∀ {i b}, ds[i]? = some b → effect (read i) s = s.respond .ok b) :
    (effects ((List.range ds.length).map read) s).rspOut = s.rspOut ++ ds.map (rspWord .ok) := by
  refine effects_reads_rspOut (List.forall₂_iff_get.2 ⟨by simp, fun i hi hi' => ?_⟩)
  simpa using h (List.getElem?_eq_getElem hi')

/-- When `decode` succeeds the verdict is OK and the payload is the deframer's. -/
theorem PktHolds.decodePacket_ok {k p : List Byte} {s : State} (h : PktHolds k s) (hk : Machine.decodePacket k = .ok p) :
    pktVerdict s = .ok ∧ s.pktPayload = p := by
  rw [h.decodePacket] at hk
  split at hk
  · next hv => exact ⟨hv, Except.ok.inj hk⟩
  · cases hk

/-- When `decode` fails the verdict is its error. -/
theorem PktHolds.decodePacket_error {k : List Byte} {e : Status} {s : State} (h : PktHolds k s)
    (hk : Machine.decodePacket k = .error e) : pktVerdict s = e ∧ e ≠ .ok := by
  rw [h.decodePacket] at hk
  split at hk
  · cases hk
  · next hv =>
    obtain rfl := Except.error.inj hk
    exact ⟨rfl, hv⟩

theorem PktHolds.length_of_decodePacket_ok {k p : List Byte} {s : State} (h : PktHolds k s)
    (hk : Machine.decodePacket k = .ok p) : p.length = s.pktLen.toNat - 3 := by
  obtain ⟨-, rfl⟩ := h.decodePacket_ok hk
  simp [State.pktPayload, Nat.sub_sub]

/-- R144, of a right packet: the payload's length. -/
theorem PktHolds.effect_pktChk_ok {k p : List Byte} {s : State} (h : PktHolds k s)
    (hk : Machine.decodePacket k = .ok p) : Machine.effect .pktChk s = s.respond .ok (lenByte p.length) := by
  rw [h.length_of_decodePacket_ok hk]
  exact if_pos (h.decodePacket_ok hk).1

/-- R144, of a wrong packet: the verdict. -/
theorem PktHolds.effect_pktChk_error {k : List Byte} {e : Status} {s : State} (h : PktHolds k s)
    (hk : Machine.decodePacket k = .error e) : Machine.effect .pktChk s = s.respondErr e := by
  obtain ⟨rfl, he⟩ := h.decodePacket_error hk
  exact if_neg he

/-- R145: the bytes PKT.RD reads are those of the payload `decode` gives. -/
theorem PktHolds.effect_pktRd {k p : List Byte} {s : State} (h : PktHolds k s) (hk : Machine.decodePacket k = .ok p)
    {i : Nat} {b : Byte} (hb : p[i]? = some b) : Machine.effect (.pktRd i) s = s.respond .ok b := by
  have hlen := h.length_of_decodePacket_ok hk
  obtain ⟨hv, rfl⟩ := h.decodePacket_ok hk
  obtain ⟨hi, rfl⟩ := List.getElem?_eq_some_iff.1 hb
  simp only [Machine.effect, hv, ne_eq, not_true_eq_false, if_false]
  rw [if_neg (by omega)]
  simp [State.pktPayload, Memory.slice, pktReadIndex, Nat.add_comm]

/-! ### What the host reads back (R79) -/

theorem rspStatus_rspWord (st : Status) (d : Byte) : rspStatus (rspWord st d) = statusCode st := (rspWord_fields st d).2.1

theorem rspData_rspWord (st : Status) (d : Byte) : rspData (rspWord st d) = d := (rspWord_fields st d).2.2

theorem lenByte_toNat {n : Nat} (h : n < 256) : (lenByte n).toNat = n := by
  simp [lenByte, Nat.mod_eq_of_lt h]

theorem readBack_encode_ok (bs : List Byte) {n : Nat} (h : n < 256) :
    (Pseudo.encode bs).readBack (rspWord .ok (lenByte n)) = (List.range n).map .encRd := by
  simp only [Pseudo.readBack, rspStatus_rspWord, rspData_rspWord, lenByte_toNat h, if_true]

theorem readBack_decode_ok (bs : List Byte) {n : Nat} (h : n < 256) :
    (Pseudo.decode bs).readBack (rspWord .ok (lenByte n)) = (List.range n).map .pktRd := by
  simp only [Pseudo.readBack, rspStatus_rspWord, rspData_rspWord, lenByte_toNat h, if_true]

/-- After an error nothing is read back. -/
theorem readBack_error (p : Pseudo) {st : Status} (h : st ≠ .ok) (d : Byte) : p.readBack (rspWord st d) = [] := by
  have hcode : statusCode st ≠ statusCode .ok := statusCode_injective.ne h
  cases p <;> simp only [Pseudo.readBack, rspStatus_rspWord, hcode, if_false]

/-! ### The expansions and their contracts (R79) -/

/-- The contract of ENCODE and of DECODE: run from `s`, the expansion's last response is `result`'s error, or the reads
that follow it answer `result`'s bytes in order. -/
def MeetsContract (p : Pseudo) (result : Except Status (List Byte)) (s : State) : Prop :=
  ∃ t r, execAll p.expand s = .next t ∧ t.rspOut.getLast? = some r ∧
    (∀ k, result = .ok k → ∃ u, execAll (p.readBack r) t = .next u ∧ u.rspOut = t.rspOut ++ k.map (rspWord .ok)) ∧
    (∀ e, result = .error e → r = rspWord e 0x00 ∧ p.readBack r = [])

/-- The contract is met when the expansion's last command, issued in `u`, answers `result`'s length or error, and the reads
issued in `u` answer its bytes. -/
theorem meetsContract_of_effects {p : Pseudo} {result : Except Status (List Byte)} {s u : State} {last : Instr}
    {read : Nat → Instr} (hs : s.Legal) (hexpand : effects p.expand s = effect last u)
    (hback : ∀ {n}, n < 256 → p.readBack (rspWord .ok (lenByte n)) = (List.range n).map read)
    (hok : ∀ {k}, result = .ok k → k.length < 256 ∧ effect last u = u.respond .ok (lenByte k.length) ∧
      ∀ {i b}, k[i]? = some b → effect (read i) u = u.respond .ok b)
    (herror : ∀ {e}, result = .error e → e ≠ .ok ∧ effect last u = u.respondErr e) : MeetsContract p result s := by
  have hexec := execAll_eq_effects p.expand hs
  have hlegal := effects_legal p.expand hs
  rw [hexpand] at hexec hlegal
  cases hresult : result with
  | error e =>
    obtain ⟨he, hlast⟩ := herror hresult
    rw [hlast] at hexec
    exact ⟨_, rspWord e 0x00, hexec, List.getLast?_concat .., nofun,
      fun e' he' => Except.error.inj he' ▸ ⟨rfl, readBack_error p he 0x00⟩⟩
  | ok k =>
    obtain ⟨hlen, hlast, hreads⟩ := hok hresult
    rw [hlast] at hexec hlegal
    refine ⟨_, rspWord .ok (lenByte k.length), hexec, List.getLast?_concat .., fun k' hk' => ?_, nofun⟩
    obtain rfl := Except.ok.inj hk'
    rw [hback hlen]
    exact ⟨_, execAll_eq_effects _ hlegal,
      effects_indexed_reads_rspOut fun hb => effect_respond_of_read (hreads hb) _ _⟩

theorem crc8_meets_contract (bs : List Byte) {s : State} (h : s.Legal) :
    ∃ t, execAll (Pseudo.crc8 bs).expand s = .next t ∧ t.rspOut.getLast? = some (rspWord .ok (crc8 bs)) := by
  have hacc : (effects (bs.map .crcUpd) (effect .crcInit s)).crcAcc = crc8 bs := by
    rw [effects_crcAcc (by simp), filterMap_map_of_carries fun _ => rfl]
    rfl
  refine ⟨_, execAll_eq_effects _ h, ?_⟩
  rw [Pseudo.expand, effects_concat, effects_cons, ← hacc]
  exact List.getLast?_concat ..

theorem encode_meets_contract (bs : List Byte) {s : State} (h : s.Legal) :
    MeetsContract (.encode bs) (encodePacket bs) s := by
  have hholds : EncHolds bs (effects (bs.map .encPut) (effect .encInit s)) := by
    have hgather := effects_gather EncHolds.effect (is := bs.map .encPut) (by simp) (encHolds_encInit s)
    rwa [filterMap_map_of_carries fun _ => rfl] at hgather
  refine meetsContract_of_effects h (effects_concat ..) (readBack_encode_ok bs) (fun {k} hk => ?_) (fun {e} he => ?_)
  · have hlen := length_of_encodePacket_ok hk
    have hp := (encodePacket_ok hk).1
    exact ⟨by omega, hholds.effect_encLen_ok hk, hholds.effect_encRd hk⟩
  · exact ⟨by simp [(encodePacket_error he).2], hholds.effect_encLen_error he⟩

theorem decode_meets_contract (bs : List Byte) {s : State} (h : s.Legal) :
    MeetsContract (.decode bs) (decodePacket bs) s := by
  have hholds : PktHolds bs (effects (bs.map .pktPut) (effect .pktInit s)) := by
    have hgather := effects_gather PktHolds.effect (is := bs.map .pktPut) (by simp) (pktHolds_pktInit s)
    rwa [filterMap_map_of_carries fun _ => rfl] at hgather
  refine meetsContract_of_effects h (effects_concat ..) (readBack_decode_ok bs) (fun {p} hp => ?_) (fun {e} he => ?_)
  · have hlen := hholds.length_of_decodePacket_ok hp
    have hcap := hholds.pktLen
    exact ⟨by omega, hholds.effect_pktChk_ok hp, hholds.effect_pktRd hp⟩
  · exact ⟨(hholds.decodePacket_error he).2, hholds.effect_pktChk_error he⟩

/-! ### The obligation -/

/-- Settles O55: what each unit holds after the expansion's bytes, and the reads that give it back. -/
theorem pseudoInstructionsMeetTheContracts : Obligations.PseudoInstructionsMeetTheContracts :=
  fun _ bs h => ⟨crc8_meets_contract bs h, encode_meets_contract bs h, decode_meets_contract bs h⟩

end Sys2Proof.Machine
end

section
/-! SUPPORT. The CRC family: the table and its rule (R102, R108), what a change of one byte does to the fold (R109), and the
three commands of the unit (R104 to R107). -/

namespace Sys2Proof.Machine

/-! ### The generating rule (R102): linear over exclusive-or, and only 0 goes to 0 -/

/-- A turn is a shift and, when a one falls out, an exclusive-or with a constant: both are linear. -/
theorem tableTurn_xor (x y : Byte) : tableTurn (x ^^^ y) = tableTurn x ^^^ tableTurn y := by
  simp only [tableTurn, BitVec.getLsbD_xor, BitVec.ushiftRight_xor_distrib]
  cases x.getLsbD 0 <;> cases y.getLsbD 0
  case false.false => rfl
  case false.true => exact BitVec.xor_assoc ..
  case true.false | true.true => simp [BitVec.xor_assoc, BitVec.xor_comm (y >>> 1)]

/-- A one that falls out shows in bit 7 of the constant, so a turn loses no bit. -/
theorem tableTurn_eq_zero {c : Byte} : tableTurn c = 0 → c = 0 := by
  revert c
  decide

theorem foldl_tableTurn_xor {α : Type} (l : List α) (x y : Byte) :
    l.foldl (fun c _ => tableTurn c) (x ^^^ y) =
      l.foldl (fun c _ => tableTurn c) x ^^^ l.foldl (fun c _ => tableTurn c) y := by
  induction l generalizing x y with
  | nil => rfl
  | cons _ l ih => simp only [List.foldl_cons, tableTurn_xor, ih]

theorem foldl_tableTurn_eq_zero {α : Type} (l : List α) {c : Byte} (h : l.foldl (fun c _ => tableTurn c) c = 0) :
    c = 0 := by
  induction l generalizing c with
  | nil => exact h
  | cons _ l ih => exact tableTurn_eq_zero (ih h)

/-- The 256 listed values, compared one by one. -/
theorem T_eq_tableByRule (i : Byte) : T i = tableByRule i := by
  revert i
  decide +kernel

theorem T_xor (x y : Byte) : T (x ^^^ y) = T x ^^^ T y := by
  simp only [T_eq_tableByRule]
  exact foldl_tableTurn_xor _ x y

theorem T_zero : T 0x00 = 0x00 := by rfl

/-- By linearity two bytes with the same entry differ by a byte whose entry is 0, which is 0 alone. -/
theorem T_injective : Function.Injective T := by
  intro x y h
  have hzero : tableByRule (x ^^^ y) = 0 := by
    rw [← T_eq_tableByRule, T_xor, h]
    exact BitVec.xor_self
  exact BitVec.xor_eq_zero_iff.1 (foldl_tableTurn_eq_zero _ hzero)

theorem T_bijective : Function.Bijective T :=
  have : Finite Byte := .of_injective _ fun _ _ => BitVec.eq_of_toFin_eq
  Finite.injective_iff_bijective.1 T_injective

/-! ### The step and the fold -/

/-- `T[a xor a]` is `T[0]`. -/
theorem crcStep_self (a : Byte) : crcStep a a = 0x00 := (congrArg T BitVec.xor_self).trans T_zero

theorem xor_byte_bijective (a : Byte) : Function.Bijective (a ^^^ ·) :=
  Function.Involutive.bijective fun b => by rw [← BitVec.xor_assoc, BitVec.xor_self, BitVec.zero_xor]

theorem crcStep_byte_bijective (a : Byte) : Function.Bijective fun b => crcStep a b :=
  T_bijective.comp (xor_byte_bijective a)

theorem crcStep_comm (a b : Byte) : crcStep a b = crcStep b a := congrArg T (BitVec.xor_comm a b)

theorem crcStep_acc_bijective (b : Byte) : Function.Bijective fun a => crcStep a b := by
  simpa only [crcStep_comm _ b] using crcStep_byte_bijective b

/-- Different accumulators stay different, whatever bytes follow. -/
theorem crcFold_acc_injective (s : List Byte) : Function.Injective fun a => crcFold a s := by
  induction s with
  | nil => exact Function.injective_id
  | cons b s ih => exact ih.comp (crcStep_acc_bijective b).injective

/-! ### The obligations -/

/-- Settles O31: what the commands leave in the accumulator is the fold of the bytes they carry, from CRC.INIT's value or
from the old one. -/
theorem crcCommandsComputeCrc8 : Obligations.CrcCommandsComputeCrc8 := by
  intro s cs hl hinit
  refine ⟨⟨_, execAll_eq_effects _ hl, ?_⟩, ⟨_, execAll_eq_effects _ hl, effects_crcAcc hinit s⟩,
    fun hacc => ⟨_, execAll_eq_effects _ hl, ?_⟩⟩
  · rw [effects_cons, effects_crcAcc hinit]
    rfl
  · rw [effects_crcAcc hinit, hacc]
    rfl

/-- Settles O29: `T` inherits linearity and injectivity from the eight turns of its rule; the step is `T` after an
exclusive-or. -/
theorem crcTableIsALinearPermutation : Obligations.CrcTableIsALinearPermutation :=
  ⟨T_zero, T_bijective, T_xor, crcStep_byte_bijective, crcStep_acc_bijective, crcStep_self,
   fun s => by rw [crc8_snoc, crcStep_self]⟩

/-- Settles O30: the changed byte makes the accumulators differ, and no later byte makes them meet; a leading 0x00
leaves the accumulator at 0x00. -/
theorem crcDetectsEverySingleByteChange : Obligations.CrcDetectsEverySingleByteChange := by
  refine ⟨fun u v x y hxy heq => hxy ?_, fun s => congrArg (crcFold · s) (crcStep_self 0x00)⟩
  simp only [crc8, crcFold_append, crcFold_cons] at heq
  exact (crcStep_byte_bijective _).injective (crcFold_acc_injective v heq)

/-- Settles O25: its row of R74, and its effect in a legal state. -/
theorem crcInitSeedsTheAccumulator : Obligations.CrcInitSeedsTheAccumulator :=
  ⟨selects_crcInit, fun _ => exec_of_legal .crcInit⟩

/-- Settles O26: its row of R74, and its effect in a legal state. -/
theorem crcUpdFoldsOneByte : Obligations.CrcUpdFoldsOneByte :=
  ⟨selects_crcUpd, fun _ b => exec_of_legal (.crcUpd b)⟩

/-- Settles O27: its row of R74, and its effect in a legal state. -/
theorem crcRdReadsTheAccumulator : Obligations.CrcRdReadsTheAccumulator :=
  ⟨selects_crcRd, fun _ => exec_of_legal .crcRd⟩

/-- Settles O28: the comparison of the listing with the rule. -/
theorem crcTableIsWhatItsRuleGenerates : Obligations.CrcTableIsWhatItsRuleGenerates := T_eq_tableByRule

/-- Settles O32: the fold, evaluated on the three inputs. -/
theorem crc8CheckValues : Obligations.Crc8CheckValues := by
  refine ⟨?_, ?_, ?_⟩ <;> decide

end Sys2Proof.Machine
end

section
/-! SUPPORT. The framer family: what an answer says of the state it comes from, the bytes of the packet ENC.RD gives
(R125), and what the framer holds while its commands run (R121 to R127). -/

namespace Sys2Proof.Machine

/-! ### A command that only answers -/

/-- A command that only answers gives no other status and no other data. -/
theorem OnlyAnswers.unique {i : Instr} {s t : State} {st st' : Status} {d d' : Byte} (h : OnlyAnswers i s st d)
    (ht : exec i s = .next t) (hans : Answers s t st' d') : st = st' ∧ d = d' := by
  obtain rfl : t = s.respond st d := Host.Outcome.next.inj (ht.symm.trans h)
  exact Answers.unique (t := s.respond st d) ⟨rfl, rfl⟩ hans

theorem onlyAnswers_lengthErr_of_encOvf {i : Instr} {s : State} (hl : s.Legal) (ho : s.encOvf = true)
    (hi : i = .encLen ∨ ∃ n, i = .encRd n) : OnlyAnswers i s .lengthErr 0x00 :=
  (onlyAnswers_iff hl).2 (effect_encRead_of_ovf ho hi)

theorem onlyAnswers_encLen_of_no_ovf {s : State} (hl : s.Legal) (ho : s.encOvf = false) :
    OnlyAnswers .encLen s .ok (lenByte (s.encLen.toNat + 3)) :=
  (onlyAnswers_iff hl).2 (if_neg (ne_true_of_eq_false ho))

theorem effect_encRd_of_no_ovf (i : Nat) {s : State} (ho : s.encOvf = false) : effect (.encRd i) s =
    if i > s.encLen.toNat + 2 then s.respondErr .rangeErr else s.respond .ok (encPacketByte s i) :=
  if_neg (ne_true_of_eq_false ho)

theorem onlyAnswers_encRd_rangeErr {i : Nat} {s : State} (hl : s.Legal) (ho : s.encOvf = false)
    (hi : i > s.encLen.toNat + 2) : OnlyAnswers (.encRd i) s .rangeErr 0x00 :=
  (onlyAnswers_iff hl).2 ((effect_encRd_of_no_ovf i ho).trans (if_pos hi))

theorem onlyAnswers_encRd_packetByte {i : Nat} {s : State} (hl : s.Legal) (ho : s.encOvf = false)
    (hi : i ≤ s.encLen.toNat + 2) : OnlyAnswers (.encRd i) s .ok (encPacketByte s i) :=
  (onlyAnswers_iff hl).2 ((effect_encRd_of_no_ovf i ho).trans (if_neg (Nat.not_lt.2 hi)))

/-! ### The bytes of `enc_packet` (R125) -/

theorem encPacketByte_payload {s : State} {i : Nat} (h2 : 2 ≤ i) (hi : i ≤ s.encLen.toNat + 1) :
    encPacketByte s i = s.encBuf.read (i - 2) := by
  unfold encPacketByte
  rw [if_neg (by omega), if_neg (by omega), if_pos hi, encReadIndex]

theorem encPacketByte_crc (s : State) :
    encPacketByte s (s.encLen.toNat + 2) = crc8 ((List.range s.encLen.toNat).map s.encBuf.read) := by
  unfold encPacketByte
  rw [if_neg (by omega), if_neg (by omega), if_neg (by omega), State.encPayload, Memory.slice_zero]

/-! ### What an OK answer says (R127) -/

theorem encOvf_of_answers_ok {i : Instr} {s t : State} {d : Byte} (hi : i = .encLen ∨ ∃ n, i = .encRd n)
    (ht : exec i s = .next t) (hans : Answers s t .ok d) : s.encOvf = false := by
  refine eq_false_of_ne_true fun ho => ?_
  obtain ⟨hst, -⟩ := (onlyAnswers_lengthErr_of_encOvf (exec_next ht).1 ho hi).unique ht hans
  cases hst

theorem encLen_answers_ok {s t : State} {d : Byte} (ht : exec .encLen s = .next t) (hans : Answers s t .ok d) :
    s.encLen.toNat ≤ 32 ∧ d = lenByte (s.encLen.toNat + 3) := by
  obtain ⟨hl, -⟩ := exec_next ht
  have ho := encOvf_of_answers_ok (.inl rfl) ht hans
  obtain ⟨-, hd⟩ := (onlyAnswers_encLen_of_no_ovf hl ho).unique ht hans
  exact ⟨hl.1.1, hd.symm⟩

theorem encRd_answers_ok {i : Nat} {s t : State} {d : Byte} (ht : exec (.encRd i) s = .next t)
    (hans : Answers s t .ok d) : s.encLen.toNat ≤ 32 ∧ i ≤ s.encLen.toNat + 2 ∧ d = encPacketByte s i := by
  obtain ⟨hl, -⟩ := exec_next ht
  have ho := encOvf_of_answers_ok (.inr ⟨i, rfl⟩) ht hans
  by_cases hi : i > s.encLen.toNat + 2
  · obtain ⟨hst, -⟩ := (onlyAnswers_encRd_rangeErr hl ho hi).unique ht hans
    cases hst
  · have hi := Nat.not_lt.1 hi
    obtain ⟨-, hd⟩ := (onlyAnswers_encRd_packetByte hl ho hi).unique ht hans
    exact ⟨hl.1.1, hi, hd.symm⟩

/-! ### What the framer holds while commands run (R126) -/

theorem EncHolds.effects {p : List Byte} {is : List Instr} {s : State} (hinit : .encInit ∉ is) (h : EncHolds p s) :
    EncHolds (p ++ is.filterMap encPutByte) (Machine.effects is s) :=
  effects_gather EncHolds.effect hinit h

theorem encHolds_effects_encInit {is : List Instr} (hinit : .encInit ∉ is) (s : State) :
    EncHolds (is.filterMap encPutByte) (effects (.encInit :: is) s) :=
  (encHolds_encInit s).effects hinit

theorem EncHolds.encHasRoom_iff {p : List Byte} {s : State} (h : EncHolds p s) : s.EncHasRoom ↔ p.length < 32 := by
  rw [State.EncHasRoom, h.encLen, h.2, encCap_eq, decide_eq_false_iff_not]
  omega

theorem EncHolds.answers_encPut {p : List Byte} {s : State} (h : EncHolds p s) (b : Byte) :
    Answers s (Machine.effect (.encPut b) s) (if p.length < 32 then .ok else .lengthErr) 0x00 := by
  by_cases hp : p.length < 32
  · rw [if_pos hp, effect_encPut_of_room b (h.encHasRoom_iff.2 hp)]
    exact ⟨rfl, rfl⟩
  · rw [if_neg hp, effect_encPut_of_full b (mt h.encHasRoom_iff.1 hp)]
    exact ⟨rfl, rfl⟩

/-- A payload too long for `encode` keeps the flag up until the next ENC.INIT, since more bytes only lengthen it. -/
theorem EncHolds.encOvf_effects {p : List Byte} {is : List Instr} {s : State} (hinit : .encInit ∉ is)
    (h : EncHolds p s) (hp : 32 < p.length) : (Machine.effects is s).encOvf = true := by
  rw [(h.effects hinit).2, decide_eq_true_eq, List.length_append]
  omega

/-! ### The obligations -/

/-- Settles O37: the framer holds the payload its ENC.PUTs carried, so the reads give `encode` of it, and its LengthError
stays. -/
theorem framerCommandsComputeEncode : Obligations.FramerCommandsComputeEncode := by
  rintro s cs _ hl hinit rfl
  have hholds := encHolds_effects_encInit hinit s
  have ht := effects_legal (.encInit :: cs) hl
  refine ⟨?_, _, execAll_eq_effects _ hl, fun k hk => ?_, fun e he => ?_⟩
  · rintro pre b post rfl
    have hpre := encHolds_effects_encInit (fun hmem => hinit (List.mem_append_left _ hmem)) s
    exact ⟨_, _, execAll_eq_effects _ hl, exec_of_legal _ (effects_legal _ hl), hpre.answers_encPut b⟩
  · have hlen := length_of_encodePacket_ok hk
    refine ⟨hlen, (onlyAnswers_iff ht).2 ?_, fun i b hb => (onlyAnswers_iff ht).2 (hholds.effect_encRd hk hb)⟩
    rw [hholds.effect_encLen_ok hk, hlen, lenByte]
  · obtain ⟨hlong, rfl⟩ := encodePacket_error he
    refine ⟨rfl, fun ds hds => ⟨_, execAll_eq_effects ds ht, ?_⟩⟩
    have hread {i : Instr} := onlyAnswers_lengthErr_of_encOvf (i := i) (effects_legal ds ht)
      (hholds.encOvf_effects hds hlong)
    exact ⟨hread (.inl rfl), fun i => hread (.inr ⟨i, rfl⟩)⟩

/-- Settles O34: its row of R74, and its effect with and without room. -/
theorem encPutAppendsOrOverflows : Obligations.EncPutAppendsOrOverflows := by
  refine ⟨selects_encPut, fun s b hl => ⟨fun ho hlt => ?_, fun hfull => ?_⟩⟩
  · refine ⟨_, exec_of_legal _ hl, ?_⟩
    rw [effect_encPut_of_room b ⟨ho, hlt⟩]
    exact ⟨⟨rfl, rfl⟩, encLen_succ hlt, ho, Memory.read_write_same ..,
      fun a ha => Memory.read_write_other s.encBuf b ha, rfl, ⟨rfl, rfl, rfl⟩, ⟨rfl, rfl, rfl, rfl⟩⟩
  · have hroom : ¬ s.EncHasRoom := by
      rintro ⟨ho, hlt⟩
      rw [encCap_eq] at hlt
      exact hfull.elim (ne_true_of_eq_false ho) hlt.ne
    rw [exec_of_legal _ hl, effect_encPut_of_full b hroom]
    rfl

/-- Settles O36: its row of R74, and the answer index by index. -/
theorem encRdReadsThePacket : Obligations.EncRdReadsThePacket := by
  refine ⟨selects_encRd, fun s i hl => ⟨fun ho => onlyAnswers_lengthErr_of_encOvf hl ho (.inr ⟨i, rfl⟩), fun ho => ?_⟩⟩
  have hread {i : Nat} := onlyAnswers_encRd_packetByte (i := i) hl ho
  refine ⟨onlyAnswers_encRd_rangeErr hl ho, ?_, ?_, fun h2 hi => ?_, ?_⟩
  · rintro rfl
    exact hread (by omega)
  · rintro rfl
    exact hread (by omega)
  · exact encPacketByte_payload h2 hi ▸ hread (by omega)
  · rintro rfl
    exact encPacketByte_crc s ▸ hread le_rfl

/-- Settles O33: its row of R74, and its effect in a legal state. -/
theorem encInitStartsAPayload : Obligations.EncInitStartsAPayload :=
  ⟨selects_encInit, fun _ => exec_of_legal .encInit⟩

/-- Settles O35: its row of R74, and its answer with and without the flag. -/
theorem encLenAnswersThePacketLength : Obligations.EncLenAnswersThePacketLength :=
  ⟨selects_encLen, fun _ hl =>
    ⟨fun ho => onlyAnswers_lengthErr_of_encOvf hl ho (.inl rfl), onlyAnswers_encLen_of_no_ovf hl⟩⟩

/-- Settles O38: `encode` on either side of 32 bytes, and evaluated on the empty payload. -/
theorem encodeMakesThePacket : Obligations.EncodeMakesThePacket := by
  refine fun p => ⟨fun hp => ?_, fun hp => ?_, fun k hk => ?_, rfl⟩
  · rw [encodePacket_eq, if_pos hp]
  · rw [encodePacket_eq, if_neg (Nat.not_lt.2 hp)]
  · have hlen := length_of_encodePacket_ok hk
    have hp := (encodePacket_ok hk).1
    omega

/-- Settles O39: an OK answer comes only without overflow, and then R35 bounds the length it carries or allows. -/
theorem framerNeverEmitsAnOversizePacket : Obligations.FramerNeverEmitsAnOversizePacket := by
  refine ⟨fun p hp => ⟨_, (encodeMakesThePacket p).1 hp⟩, ?_, ?_, ?_⟩
  · intro s t d ht hans
    obtain ⟨hlen, -, rfl⟩ := encRd_answers_ok ht hans
    exact (lenByte_toNat (n := s.encLen.toNat) (by omega)).trans_le hlen
  · intro s t d ht hans
    obtain ⟨hlen, rfl⟩ := encLen_answers_ok ht hans
    rw [lenByte_toNat (by omega)]
    omega
  · intro s t d i ht hans
    obtain ⟨hlen, hi, -⟩ := encRd_answers_ok ht hans
    omega

end Sys2Proof.Machine
end

section
/-! SUPPORT. The deframer family: what the verdict makes of PKT.CHK and PKT.RD (R143 to R145), and what `decode` makes of
a framed packet, whole (R147, R149) or with one byte changed (R148). -/

namespace Sys2Proof.Machine

/-! ### PKT.CHK and PKT.RD, by the verdict -/

theorem onlyAnswers_pktChk_ok {s : State} (hl : s.Legal) (hv : pktVerdict s = .ok) :
    OnlyAnswers .pktChk s .ok (lenByte (s.pktLen.toNat - 3)) :=
  (onlyAnswers_iff hl).2 (if_pos hv)

theorem onlyAnswers_pktChk_error {s : State} {e : Status} (hl : s.Legal) (hv : pktVerdict s = e) (he : e ≠ .ok) :
    OnlyAnswers .pktChk s e 0x00 := by
  subst hv
  exact (onlyAnswers_iff hl).2 (if_neg he)

/-- The status PKT.CHK answers is the verdict. -/
theorem pktVerdict_of_onlyAnswers_pktChk {s : State} {st : Status} {d : Byte} (hl : s.Legal)
    (h : OnlyAnswers .pktChk s st d) : pktVerdict s = st := by
  by_cases hv : pktVerdict s = .ok
  · exact hv.trans ((onlyAnswers_pktChk_ok hl hv).unique h ⟨rfl, rfl⟩).1
  · exact ((onlyAnswers_pktChk_error hl rfl hv).unique h ⟨rfl, rfl⟩).1

theorem onlyAnswers_pktRd_error {s : State} {e : Status} (i : Nat) (hl : s.Legal) (hv : pktVerdict s = e)
    (he : e ≠ .ok) : OnlyAnswers (.pktRd i) s e 0x00 := by
  subst hv
  exact (onlyAnswers_iff hl).2 (if_pos he)

theorem effect_pktRd_of_ok (i : Nat) {s : State} (hv : pktVerdict s = .ok) : effect (.pktRd i) s =
    if i ≥ s.pktLen.toNat - 3 then s.respondErr .rangeErr else s.respond .ok (s.pktBuf.read (pktReadIndex i)) :=
  if_neg (not_not.2 hv)

theorem onlyAnswers_pktRd_rangeErr {s : State} {i : Nat} (hl : s.Legal) (hv : pktVerdict s = .ok)
    (hi : i ≥ s.pktLen.toNat - 3) : OnlyAnswers (.pktRd i) s .rangeErr 0x00 :=
  (onlyAnswers_iff hl).2 ((effect_pktRd_of_ok i hv).trans (if_pos hi))

theorem onlyAnswers_pktRd_payload {s : State} {i : Nat} (hl : s.Legal) (hv : pktVerdict s = .ok)
    (hi : i < s.pktLen.toNat - 3) : OnlyAnswers (.pktRd i) s .ok (s.pktBuf.read (2 + i)) := by
  rw [Nat.add_comm 2 i]
  exact (onlyAnswers_iff hl).2 ((effect_pktRd_of_ok i hv).trans (if_neg (Nat.not_le.2 hi)))

/-! ### The lines of the verdict (R143) -/

/-- The payload slice, `PKT_LEN - 3` bytes from index 2 on. -/
theorem pktPayload_eq (s : State) :
    s.pktPayload = (List.range (s.pktLen.toNat - 3)).map fun k => s.pktBuf.read (2 + k) := by
  rw [State.pktPayload, Memory.slice, Nat.sub_sub]

/-- The lines that are left when the first does not apply. -/
theorem pktVerdict_of_not_short {s : State} (h : s.pktOvf = true ∨ 4 ≤ s.pktLen.toNat) :
    pktVerdict s =
      if s.pktBuf.read 0 = 0xD5 then
        if s.pktOvf = true ∨ (s.pktBuf.read 1).toNat ≠ s.pktLen.toNat - 3 then .lengthFieldErr
        else if s.pktBuf.read (s.pktLen.toNat - 1) = crc8 s.pktPayload then .ok
        else .crcErr
      else .headerErr := by
  rw [pktVerdict_eq, if_neg]
  rintro ⟨ho, hlt⟩
  exact h.elim (ne_true_of_eq_false ho) (Nat.not_le.2 hlt)

/-- What the deframer was given since its last PKT.INIT. -/
theorem pktHolds_effects_pktInit {is : List Instr} (hinit : .pktInit ∉ is) (s : State) :
    PktHolds (is.filterMap pktPutByte) (effects (.pktInit :: is) s) :=
  effects_gather PktHolds.effect hinit (pktHolds_pktInit s)

/-! ### `decode` on packets written out by their fields (R140) -/

theorem decodePacket_of_length_lt {k : List Byte} (h : k.length < 4) : decodePacket k = .error .lengthErr := by
  rw [decodePacket_eq, if_pos h]

/-- R140 on a header, a length byte, a payload and a last byte: the three checks that are left for a non-empty payload. -/
theorem decodePacket_fields (header len crc : Byte) {p : List Byte} (hp : 1 ≤ p.length) :
    decodePacket (header :: len :: (p ++ [crc])) =
      if header = 0xD5 then
        if len.toNat = p.length then if crc = crc8 p then .ok p else .error .crcErr
        else .error .lengthFieldErr
      else .error .headerErr := by
  have hlen : (header :: len :: (p ++ [crc])).length = p.length + 3 := by simp
  have hlast : (header :: len :: (p ++ [crc])).getD (p.length + 2) 0 = crc := by simp
  have hslice : seqSlice (header :: len :: (p ++ [crc])) 2 (p.length + 2) = p := by simp [seqSlice]
  have hsub : p.length + 3 - 1 = p.length + 2 := rfl
  rw [decodePacket_eq, hlen, if_neg (by omega), Nat.add_sub_cancel, hsub, hlast, hslice]
  rfl

/-- R149: with the right header and length byte the last byte alone decides, as long as one byte can say the length. -/
theorem decodePacket_of_length_byte (crc : Byte) {p : List Byte} (hp : 1 ≤ p.length) (hp' : p.length ≤ 255) :
    decodePacket (0xD5 :: lenByte p.length :: (p ++ [crc])) = if crc = crc8 p then .ok p else .error .crcErr := by
  rw [decodePacket_fields _ _ _ hp, if_pos rfl, if_pos (lenByte_toNat (Nat.lt_succ_of_le hp'))]

theorem decodePacket_framed {p : List Byte} (hp : 1 ≤ p.length) (hp' : p.length ≤ 255) :
    decodePacket (0xD5 :: lenByte p.length :: (p ++ [crc8 p])) = .ok p :=
  (decodePacket_of_length_byte _ hp hp').trans (if_pos rfl)

/-- R125: a list of the framer's packet length that ENC.RD answers byte by byte is the packet of its payload. -/
theorem eq_packet_of_onlyAnswers_encRd {s : State} {k : List Byte} (hl : s.Legal) (ho : s.encOvf = false)
    (hlen : k.length = s.encLen.toNat + 3) (hk : ∀ i b, k[i]? = some b → OnlyAnswers (.encRd i) s .ok b) :
    k = 0xD5 :: lenByte s.encLen.toNat :: (s.encPayload ++ [crc8 s.encPayload]) := by
  refine List.ext_getElem? fun i => ?_
  by_cases hi : i < s.encLen.toNat + 3
  · have hget := List.getElem?_eq_getElem (l := k) (i := i) (by omega)
    obtain ⟨-, hbyte⟩ := (hk i _ hget).unique (onlyAnswers_encRd_packetByte hl ho (by omega)) ⟨rfl, rfl⟩
    rw [packet_getElem? hi, hget, hbyte]
  · rw [List.getElem?_eq_none (by omega), List.getElem?_eq_none (by simp [State.encPayload]; omega)]

/-! ### A changed byte (R148) -/

/-- R109 for a byte replaced in place. -/
theorem crc8_set_ne {p : List Byte} {j : Nat} {b y : Byte} (hb : p[j]? = some b) (hy : y ≠ b) :
    crc8 (p.set j y) ≠ crc8 p := by
  obtain ⟨hj, rfl⟩ := List.getElem?_eq_some_iff.1 hb
  have hne := crcDetectsEverySingleByteChange.1 (p.take j) (p.drop (j + 1)) y p[j] hy
  rwa [List.getElem_cons_drop, List.take_append_drop, ← List.set_eq_take_cons_drop _ hj] at hne

/-- A changed payload byte leaves the CRC byte wrong for the payload, a changed CRC byte is wrong for it. -/
theorem decodePacket_set_crcErr {p : List Byte} {j : Nat} {b y : Byte} (hp : 1 ≤ p.length) (hp' : p.length ≤ 255)
    (hb : (p ++ [crc8 p])[j]? = some b) (hy : y ≠ b) :
    decodePacket (0xD5 :: lenByte p.length :: (p ++ [crc8 p]).set j y) = .error .crcErr := by
  by_cases hj : j < p.length
  · rw [List.getElem?_append_left hj] at hb
    rw [List.set_append_left _ _ hj, ← List.length_set (as := p) (i := j) (a := y)]
    exact (decodePacket_of_length_byte _ (by simpa) (by simpa)).trans (if_neg (crc8_set_ne hb hy).symm)
  · obtain rfl : j = p.length := by
      have hlt : j < p.length + 1 := by simpa using (List.getElem?_eq_some_iff.1 hb).1
      omega
    obtain rfl : crc8 p = b := by simpa using hb
    rw [List.set_append_right _ _ le_rfl, Nat.sub_self]
    exact (decodePacket_of_length_byte _ hp hp').trans (if_neg hy)

/-! ### The obligations -/

/-- Settles O44: the deframer holds the packet its PKT.PUTs carried, and the verdict on that is `decode`'s result. -/
theorem deframerCommandsComputeDecode : Obligations.DeframerCommandsComputeDecode := by
  rintro s cs _ hl hinit rfl
  have hholds := pktHolds_effects_pktInit hinit s
  have ht := effects_legal (.pktInit :: cs) hl
  refine ⟨_, execAll_eq_effects _ hl, fun e he => ?_, fun p hp => ?_⟩
  · obtain ⟨hv, hne⟩ := hholds.decodePacket_error he
    exact ⟨onlyAnswers_pktChk_error ht hv hne, fun i => onlyAnswers_pktRd_error i ht hv hne⟩
  · obtain ⟨hv, -⟩ := hholds.decodePacket_ok hp
    have hlen := hholds.length_of_decodePacket_ok hp
    exact ⟨(onlyAnswers_iff ht).2 (hholds.effect_pktChk_ok hp),
      fun i b hb => (onlyAnswers_iff ht).2 (hholds.effect_pktRd hp hb),
      fun i hi => onlyAnswers_pktRd_rangeErr ht hv (hlen ▸ hi)⟩

/-- Settles O46: `decode` of a framed packet is its payload, and the bytes ENC.RD answers are a framed packet, which the
deframer's commands decode. -/
theorem framedPayloadsDeframe : Obligations.FramedPayloadsDeframe := by
  refine ⟨fun p hp hp' => ?_, ⟨_, rfl, decodePacket_of_length_lt (by decide)⟩, fun s k hl ho hlen1 hlen hk => ?_⟩
  · exact ⟨_, (encodeMakesThePacket p).2.1 hp', decodePacket_framed hp (by omega)⟩
  · have hplen : s.encPayload.length = s.encLen.toNat := by simp [State.encPayload]
    have hcap : s.encLen.toNat ≤ 32 := hl.1.1
    have hdec : decodePacket k = .ok s.encPayload := by
      rw [eq_packet_of_onlyAnswers_encRd hl ho hlen hk, ← hplen]
      exact decodePacket_framed (by omega) (by omega)
    obtain ⟨t, ht, -, hok⟩ := deframerCommandsComputeDecode s (k.map .pktPut) k hl (by simp)
      (filterMap_map_of_carries (fun _ => rfl) k).symm
    obtain ⟨hchk, hrd, -⟩ := hok _ hdec
    exact ⟨t, ht, hplen ▸ hchk, fun i hi => hrd i _ (Memory.slice_getElem? _ hi)⟩

/-- Settles O41: its row of R74, and its effect with and without room. -/
theorem pktPutAppendsOrOverflows : Obligations.PktPutAppendsOrOverflows := by
  refine ⟨selects_pktPut, fun s b hl => ⟨fun hlt => ?_, fun hfull => ?_⟩⟩
  · refine ⟨_, exec_of_legal _ hl, ?_⟩
    rw [effect_pktPut_of_room b hlt]
    exact ⟨⟨rfl, rfl⟩, pktLen_succ hlt, rfl, Memory.read_write_same ..,
      fun a ha => Memory.read_write_other s.pktBuf b ha, rfl, ⟨rfl, rfl, rfl⟩, ⟨rfl, rfl, rfl, rfl⟩⟩
  · rw [exec_of_legal _ hl, effect_pktPut_of_full b hfull.not_lt]
    rfl

/-- Settles O42: its row of R74, and the answer line by line of the verdict. -/
theorem pktChkGivesTheVerdict : Obligations.PktChkGivesTheVerdict := by
  refine ⟨selects_pktChk, fun s hl => ⟨fun hshort => ?_, fun hlong => ?_⟩⟩
  · exact onlyAnswers_pktChk_error hl (by rw [pktVerdict_eq, if_pos hshort]) (by decide)
  have hv := pktVerdict_of_not_short hlong
  refine ⟨fun hheader => ?_, fun hheader => ⟨fun hbad => ?_, fun ho hbyte => ?_⟩⟩
  · exact onlyAnswers_pktChk_error hl (by rw [hv, if_neg hheader]) (by decide)
  · exact onlyAnswers_pktChk_error hl (by rw [hv, if_pos hheader, if_pos hbad]) (by decide)
  rw [if_pos hheader, if_neg (by simp [ho, hbyte])] at hv
  rw [← pktPayload_eq]
  refine ⟨fun hcrc => ?_, fun hcrc => ⟨?_, ?_⟩⟩
  · exact onlyAnswers_pktChk_error hl (by rw [hv, if_neg hcrc]) (by decide)
  · exact onlyAnswers_pktChk_ok hl (by rw [hv, if_pos hcrc])
  · have hcap : s.pktLen.toNat ≤ 258 := hl.2.1.1
    have hmin : 4 ≤ s.pktLen.toNat := hlong.resolve_left (ne_true_of_eq_false ho)
    omega

/-- Settles O43: its row of R74, and the answer by the verdict, which is what PKT.CHK answers. -/
theorem pktRdReadsThePayload : Obligations.PktRdReadsThePayload :=
  ⟨selects_pktRd, fun _ i hl =>
    ⟨fun _ hne hchk => onlyAnswers_pktRd_error i hl (pktVerdict_of_onlyAnswers_pktChk hl hchk) hne,
     fun _ hchk =>
      have hv := pktVerdict_of_onlyAnswers_pktChk hl hchk
      ⟨onlyAnswers_pktRd_rangeErr hl hv, onlyAnswers_pktRd_payload hl hv⟩⟩⟩

/-- Settles O47: the check that looks at the changed byte fails, and those before it still hold. -/
theorem damagedPacketsAreDetected : Obligations.DamagedPacketsAreDetected := by
  intro p k j x b hp hk hb hx
  have hbx : b ^^^ x ≠ b := mt xor_left_eq_self_iff.1 hx
  obtain ⟨hp', rfl⟩ := encodePacket_ok hk
  refine ⟨?_, ?_, fun hj => ?_⟩
  · rintro rfl
    obtain rfl := Option.some.inj hb
    exact (decodePacket_fields _ _ _ hp).trans (if_neg hbx)
  · rintro rfl
    obtain rfl := Option.some.inj hb
    refine (decodePacket_fields _ _ _ hp).trans ((if_pos rfl).trans (if_neg fun hlen => hbx ?_))
    exact BitVec.eq_of_toNat_eq (hlen.trans (lenByte_toNat (by omega)).symm)
  · obtain ⟨i, rfl⟩ := Nat.exists_eq_add_of_le' hj
    exact decodePacket_set_crcErr hp (by omega) hb hbx

/-- Settles O40: its row of R74, and its effect in a legal state. -/
theorem pktInitStartsAPacket : Obligations.PktInitStartsAPacket :=
  ⟨selects_pktInit, fun _ => exec_of_legal .pktInit⟩

/-- Settles O45: the first check of `decode`, and the others on a packet whose length one byte can say. -/
theorem decodeHasALowerLimitOnly : Obligations.DecodeHasALowerLimitOnly :=
  ⟨fun _ => decodePacket_of_length_lt, decodePacket_of_length_lt (by decide), fun _ => decodePacket_framed⟩

end Sys2Proof.Machine
end

section
/-! SUPPORT. The stream decoder family: the rows of the transition table (R160), the bytes of a packet the decoder has taken
(R172), and what it holds while a framed packet is pushed (R171), with or without noise before it (R173). -/

namespace Sys2Proof.Machine

/-! ### The rows of the table (R160), by the state and the byte -/

theorem effect_decPush_header_ok {s : State} (h : s.decState = .awaitingHeader) :
    effect (.decPush 0xD5) s = s.decGoto .awaitingLength :=
  (effect_decPush_header _ h).trans (if_pos rfl)

theorem effect_decPush_header_err {b : Byte} {s : State} (h : s.decState = .awaitingHeader) (hb : b ≠ 0xD5) :
    effect (.decPush b) s = s.respondErr .headerErr :=
  (effect_decPush_header b h).trans (if_neg hb)

theorem effect_decPush_length_ok {b : Byte} {s : State} (h : s.decState = .awaitingLength) (hb : b.toNat ≤ 32) :
    effect (.decPush b) s =
      State.decGoto { s with decExpLen := b.setWidth 6 } (if b = 0 then .awaitingCrc else .awaitingData) :=
  (effect_decPush_length b h).trans (if_pos hb)

theorem effect_decPush_length_err {b : Byte} {s : State} (h : s.decState = .awaitingLength) (hb : 32 < b.toNat) :
    effect (.decPush b) s = s.respondErr .lengthFieldErr :=
  (effect_decPush_length b h).trans (if_neg (Nat.not_le.2 hb))

theorem effect_decPush_data_append (b : Byte) {s : State} (h : s.decState = .awaitingData) (hc : s.decCnt.toNat < 32) :
    effect (.decPush b) s =
      (s.decAppend b).decGoto (if s.decCnt.toNat + 1 = s.decExpLen.toNat then .awaitingCrc else .awaitingData) := by
  rw [effect_decPush_data b h, ← decCnt_succ hc]
  simp only [BitVec.toNat_inj]
  rfl

theorem effect_decPush_crc_ok {s : State} (h : s.decState = .awaitingCrc) :
    effect (.decPush (crc8 s.decPayload)) s = s.decGoto .ready :=
  (effect_decPush_crc _ h).trans (if_pos rfl)

theorem effect_decPush_crc_err {b : Byte} {s : State} (h : s.decState = .awaitingCrc) (hb : b ≠ crc8 s.decPayload) :
    effect (.decPush b) s = s.respondErr .crcErr :=
  (effect_decPush_crc b h).trans (if_neg hb)

/-! ### What R35 says of the counters in a decoder state -/

theorem State.DecLegal.fresh {s : State} (hl : s.DecLegal) (h : s.decState = .awaitingHeader ∨ s.decState = .awaitingLength) :
    s.decCnt = 0 ∧ s.decExpLen = 0 := by
  obtain ⟨-, -, hfresh, -, -⟩ := hl
  exact hfresh h

theorem State.DecLegal.decCnt_lt {s : State} (hl : s.DecLegal) (h : s.decState = .awaitingData) :
    s.decCnt.toNat < s.decExpLen.toNat ∧ s.decCnt.toNat < 32 := by
  obtain ⟨hmax, -, -, hdata, -⟩ := hl
  exact ⟨hdata h, (hdata h).trans_le hmax⟩

/-! ### The filled part of the buffer -/

@[simp] theorem length_decPayload (s : State) : s.decPayload.length = s.decCnt.toNat := by simp [State.decPayload]

theorem decPayload_eq (s : State) : s.decPayload = (List.range s.decCnt.toNat).map s.decBuf.read :=
  Memory.slice_zero ..

theorem decPayload_decAppend (b : Byte) {s : State} (h : s.decCnt.toNat < 32) :
    (s.decAppend b).decPayload = s.decPayload ++ [b] := by
  simp only [State.decPayload, State.decAppend_decBuf, State.decAppend_decCnt, decCnt_succ h, Memory.slice_write_end]

/-! ### A framed packet, byte by byte (R171) -/

/-- The decoder has taken the first `j` bytes of the packet of `p` and nothing else. -/
structure DecTook (p : List Byte) (j : Nat) (s : State) : Prop where
  decState : s.decState = streamState p.length j
  decPayload : s.decPayload = p.take (j - 2)
  decExpLen : 2 ≤ j → s.decExpLen.toNat = p.length

/-- A fresh decoder has taken nothing. -/
theorem decTook_zero (p : List Byte) {s : State} (hl : s.DecLegal) (h : s.decState = .awaitingHeader) : DecTook p 0 s where
  decState := h
  decPayload := by simp [State.decPayload, hl.fresh (.inl h)]
  decExpLen := nofun

theorem streamState_data {n i : Nat} (h : i < n) : streamState n (i + 2) = .awaitingData := by simp [streamState, h]

theorem streamState_crc (n : Nat) : streamState n (n + 2) = .awaitingCrc := by simp [streamState]

theorem streamState_ready (n : Nat) : streamState n (n + 3) = .ready := by simp [streamState]

/-- The push of `b` as byte `j` of the packet of `p` is taken, and answered OK with the code of the new state (R162). -/
def TakesByte (p : List Byte) (j : Nat) (b : Byte) (s : State) : Prop :=
  DecTook p (j + 1) (effect (.decPush b) s) ∧
  Answers s (effect (.decPush b) s) .ok (decStateByte (streamState p.length (j + 1)))

/-- R163: the header. -/
theorem DecTook.takes_header {p : List Byte} {s : State} (h : DecTook p 0 s) : TakesByte p 0 0xD5 s := by
  rw [TakesByte, effect_decPush_header_ok h.decState]
  exact ⟨⟨rfl, h.decPayload, by omega⟩, rfl, rfl⟩

/-- R164: the length byte. -/
theorem DecTook.takes_length {p : List Byte} {s : State} (hp : p.length ≤ 32) (h : DecTook p 1 s) :
    TakesByte p 1 (lenByte p.length) s := by
  have hlen : (lenByte p.length).toNat = p.length := lenByte_toNat (by omega)
  have hle : (lenByte p.length).toNat ≤ 32 := hlen.trans_le hp
  have hnext : (if lenByte p.length = 0 then .awaitingCrc else .awaitingData) = streamState p.length 2 := by
    have hzero : lenByte p.length = 0 ↔ p.length = 0 := by rw [← BitVec.toNat_inj, hlen]; rfl
    by_cases h0 : p.length = 0
    · rw [if_pos (hzero.2 h0), h0]
      rfl
    · rw [if_neg (mt hzero.1 h0), streamState_data (Nat.pos_of_ne_zero h0)]
  rw [TakesByte, effect_decPush_length_ok h.decState hle, hnext]
  exact ⟨⟨rfl, h.decPayload, fun _ => (setWidth_six_toNat hle).trans hlen⟩, rfl, rfl⟩

/-- R165: a payload byte. -/
theorem DecTook.takes_data {p : List Byte} {i : Nat} {s : State} (hp : p.length ≤ 32) (hi : i < p.length)
    (h : DecTook p (i + 2) s) : TakesByte p (i + 2) p[i] s := by
  have hexp := h.decExpLen (by omega)
  have hcnt : s.decCnt.toNat = i := by rw [← length_decPayload, h.decPayload, List.length_take]; omega
  have hnext : (if s.decCnt.toNat + 1 = s.decExpLen.toNat then .awaitingCrc else .awaitingData) =
      streamState p.length (i + 3) := by
    rw [hcnt, hexp]
    by_cases hlast : i + 1 = p.length
    · rw [if_pos hlast, ← hlast, streamState_crc]
    · rw [if_neg hlast, streamState_data (by omega)]
  have hpay : (s.decAppend p[i]).decPayload = p.take (i + 1) := by
    rw [decPayload_decAppend _ (by omega), h.decPayload, Nat.add_sub_cancel, List.take_append_getElem]
  rw [TakesByte, effect_decPush_data_append _ (h.decState.trans (streamState_data hi)) (by omega), hnext]
  exact ⟨⟨rfl, hpay, fun _ => hexp⟩, rfl, rfl⟩

/-- R166: the CRC byte. -/
theorem DecTook.takes_crc {p : List Byte} {s : State} (h : DecTook p (p.length + 2) s) :
    TakesByte p (p.length + 2) (crc8 p) s := by
  have hpay : s.decPayload = p := h.decPayload.trans (List.take_of_length_le (by omega))
  have hpush := effect_decPush_crc_ok (h.decState.trans (streamState_crc _))
  rw [hpay, ← streamState_ready p.length] at hpush
  rw [TakesByte, hpush]
  exact ⟨⟨rfl, hpay.trans (List.take_of_length_le (by omega)).symm, fun _ => h.decExpLen (by omega)⟩, rfl, rfl⟩

/-- R171: each byte of the packet is taken in its turn. -/
theorem DecTook.takes {p k : List Byte} {j : Nat} {b : Byte} {s : State} (hk : encodePacket p = .ok k)
    (hb : k[j]? = some b) (h : DecTook p j s) : TakesByte p j b s := by
  obtain ⟨hp, rfl⟩ := encodePacket_ok hk
  match j with
  | 0 =>
    obtain rfl := Option.some.inj hb
    exact h.takes_header
  | 1 =>
    obtain rfl := Option.some.inj hb
    exact h.takes_length hp
  | i + 2 =>
    replace hb : (p ++ [crc8 p])[i]? = some b := hb
    by_cases hi : i < p.length
    · rw [List.getElem?_append_left hi, List.getElem?_eq_getElem hi] at hb
      obtain rfl := Option.some.inj hb
      exact h.takes_data hp hi
    · obtain rfl : i = p.length := by
        have := (List.getElem?_eq_some_iff.1 hb).1
        rw [List.length_append, List.length_singleton] at this
        omega
      obtain rfl : crc8 p = b := by simpa using hb
      exact h.takes_crc

/-- The responses to the first `j` bytes of the packet of an `n`-byte payload (R162). -/
def streamAnswers (n j : Nat) : List RspWord :=
  (List.range j).map fun m => rspWord .ok (decStateByte (streamState n (m + 1)))

theorem streamAnswers_succ (n j : Nat) :
    streamAnswers n (j + 1) = streamAnswers n j ++ [rspWord .ok (decStateByte (streamState n (j + 1)))] := by
  simp [streamAnswers, List.range_succ]

/-- R171, for the first `j` bytes of the packet. -/
theorem DecTook.effects {p k : List Byte} {j : Nat} {s : State} (hk : encodePacket p = .ok k) (hj : j ≤ k.length)
    (h : DecTook p 0 s) :
    DecTook p j (Machine.effects ((k.take j).map .decPush) s) ∧
    (Machine.effects ((k.take j).map .decPush) s).rspOut = s.rspOut ++ streamAnswers p.length j := by
  induction j with
  | zero => exact ⟨h, (List.append_nil _).symm⟩
  | succ j ih =>
    obtain ⟨hprev, hrsp⟩ := ih (by omega)
    obtain ⟨hnext, hans, -⟩ := hprev.takes hk (List.getElem?_eq_getElem hj)
    rw [← List.take_append_getElem hj, List.map_append, List.map_singleton, effects_concat]
    exact ⟨hnext, by rw [hans, hrsp, streamAnswers_succ, List.append_assoc]⟩

/-- R171: at its last byte the whole payload is there. -/
theorem DecTook.whole {p : List Byte} {s : State} (h : DecTook p (p.length + 3) s) :
    s.decState = .ready ∧ s.decPayload = p :=
  ⟨h.decState.trans (streamState_ready _), h.decPayload.trans (List.take_of_length_le (by omega))⟩

theorem effects_append (is js : List Instr) (s : State) : effects (is ++ js) s = effects js (effects is s) :=
  List.foldl_append

/-- DEC.INIT makes the decoder fresh; where it is fresh already, no command is needed. -/
theorem effects_fresh {cs : List Instr} {s : State} (h : cs = [.decInit] ∨ cs = [] ∧ s.decState = .awaitingHeader) :
    (effects cs s).decState = .awaitingHeader ∧ (effects cs s).rspOut = s.rspOut ++ cs.map fun _ => 0x0000 := by
  obtain rfl | ⟨rfl, h⟩ := h
  · exact ⟨rfl, rfl⟩
  · exact ⟨h, (List.append_nil _).symm⟩

/-! ### How far into a packet the decoder is (R172) -/

/-- The bytes of a packet the decoder has taken: header, length, data and CRC. -/
def State.decTaken (s : State) : Nat :=
  match s.decState with
  | .awaitingHeader => 0
  | .awaitingLength => 1
  | .awaitingData | .awaitingCrc => s.decCnt.toNat + 2
  | .ready => s.decCnt.toNat + 3

theorem decTaken_of_ready {s : State} (h : s.decState = .ready) : s.decTaken = s.decCnt.toNat + 3 := by
  simp only [State.decTaken, h]

/-- A push answers OK and takes its byte, or it answers an error and changes nothing. -/
theorem effect_decPush_takes_or_errs (b : Byte) {s : State} (hl : s.DecLegal) :
    (∃ u d, effect (.decPush b) s = State.decGoto u d ∧ u.rspOut = s.rspOut ∧
      (u.decGoto d).decTaken = s.decTaken + 1) ∨
    ∃ st, st ≠ .ok ∧ effect (.decPush b) s = s.respondErr st := by
  cases hs : s.decState with
  | awaitingHeader =>
    rw [effect_decPush_header b hs]
    obtain ⟨-, h⟩ | ⟨-, h⟩ := decPushHeader_cases b s
    · exact .inl ⟨_, _, h, rfl, by simp [State.decTaken, hs]⟩
    · exact .inr ⟨_, by decide, h⟩
  | awaitingLength =>
    obtain ⟨hcnt, -⟩ := hl.fresh (.inr hs)
    rw [effect_decPush_length b hs]
    obtain ⟨-, h⟩ | ⟨-, -, h⟩ | ⟨-, h⟩ := decPushLength_cases b s
    · exact .inl ⟨_, _, h, rfl, by simp [State.decTaken, hs, hcnt]⟩
    · exact .inl ⟨_, _, h, rfl, by simp [State.decTaken, hs, hcnt]⟩
    · exact .inr ⟨_, by decide, h⟩
  | awaitingData =>
    have hsucc := decCnt_succ (hl.decCnt_lt hs).2
    rw [effect_decPush_data b hs]
    obtain ⟨-, h⟩ | ⟨-, h⟩ := decPushData_cases b s <;>
      exact .inl ⟨_, _, h, rfl, by simp only [State.decTaken, hs, State.decGoto_decState, State.decGoto_decCnt,
        State.decAppend_decCnt, hsucc]⟩
  | awaitingCrc =>
    rw [effect_decPush_crc b hs]
    obtain ⟨-, h⟩ | ⟨-, h⟩ := decPushCrc_cases b s
    · exact .inl ⟨_, _, h, rfl, by simp [State.decTaken, hs]⟩
    · exact .inr ⟨_, by decide, h⟩
  | ready => exact .inr ⟨_, by decide, effect_decPush_ready b hs⟩

/-- A response word of status OK. -/
def isOk (r : RspWord) : Bool := rspStatus r == statusCode .ok

theorem isOk_rspWord (st : Status) (d : Byte) : isOk (rspWord st d) = true ↔ st = .ok := by
  rw [isOk, rspStatus_rspWord, beq_iff_eq, statusCode_injective.eq_iff]

/-- R172: the bytes taken are counted by the OK answers. -/
theorem effects_decPush_decTaken (bs : List Byte) {s : State} (hl : s.Legal) :
    ∃ rs, (effects (bs.map .decPush) s).rspOut = s.rspOut ++ rs ∧
      (effects (bs.map .decPush) s).decTaken = s.decTaken + rs.countP isOk := by
  induction bs generalizing s with
  | nil => exact ⟨[], (List.append_nil _).symm, rfl⟩
  | cons b bs ih =>
    obtain ⟨rs, hrsp, htaken⟩ := ih (effect_legal (.decPush b) hl)
    rw [List.map_cons, effects_cons, hrsp, htaken]
    obtain ⟨u, d, he, hursp, hu⟩ | ⟨st, hst, he⟩ := effect_decPush_takes_or_errs b hl.2.2
    · refine ⟨rspWord .ok (decStateByte d) :: rs, ?_, ?_⟩
      · rw [he, State.decGoto_rspOut, hursp, List.append_assoc, List.singleton_append]
      · rw [he, hu, List.countP_cons_of_pos ((isOk_rspWord _ _).2 rfl)]
        omega
    · refine ⟨rspWord st 0x00 :: rs, ?_, ?_⟩
      · rw [he, State.respondErr_rspOut, List.append_assoc, List.singleton_append]
      · rw [he, List.countP_cons_of_neg (mt (isOk_rspWord _ _).1 hst)]
        rfl

/-! ### Noise (R173) -/

/-- R163: bytes other than the header only answer HEADER_ERR, however many they are. -/
theorem effects_decPush_noise {junk : List Byte} {s : State} (hjunk : 0xD5 ∉ junk) (h : s.decState = .awaitingHeader) :
    effects (junk.map .decPush) s =
      { s with rspOut := s.rspOut ++ List.replicate junk.length (rspWord .headerErr 0x00) } := by
  induction junk generalizing s with
  | nil => simp [effects]
  | cons b junk ih =>
    obtain ⟨hb, hjunk⟩ := not_or.1 (mt List.mem_cons.2 hjunk)
    rw [List.map_cons, effects_cons, effect_decPush_header_err h (Ne.symm hb), ih (s := s.respondErr _) hjunk h,
      State.respondErr_rspOut, List.append_assoc]
    rfl

/-! ### The reads -/

theorem onlyAnswers_decStat {d : DecState} {s : State} (hl : s.Legal) (h : s.decState = d) :
    OnlyAnswers .decStat s .ok (decStateByte d) := by
  subst h
  exact (onlyAnswers_iff hl).2 rfl

theorem onlyAnswers_decLen {s : State} (hl : s.Legal) : OnlyAnswers .decLen s .ok (lenByte s.decCnt.toNat) :=
  (onlyAnswers_iff hl).2 rfl

theorem effect_decRd_of_ready (i : Nat) {s : State} (h : s.decState = .ready) : effect (.decRd i) s =
    if i ≥ s.decCnt.toNat then s.respondErr .rangeErr else s.respond .ok (s.decBuf.read i) :=
  if_neg (not_not.2 h)

/-! ### The obligations -/

/-- Settles O52: by induction over the packet's bytes, each taken in its turn (`DecTook.takes`). -/
theorem streamingAFramedPayloadReachesReady : Obligations.StreamingAFramedPayloadReachesReady := by
  intro s p k cs hl hk hcs
  obtain ⟨hfresh, hrsp⟩ := effects_fresh hcs
  have hnone := decTook_zero p (effects_legal cs hl).2.2 hfresh
  have hlen := length_of_encodePacket_ok hk
  refine ⟨fun j hj => ?_, ?_⟩
  · obtain ⟨htook, hans⟩ := hnone.effects (j := j) hk (by omega)
    refine ⟨_, execAll_eq_effects _ hl, ?_⟩
    rw [effects_append, hans, hrsp, List.append_assoc]
    exact ⟨htook.decState, rfl⟩
  · obtain ⟨htook, -⟩ := hnone.effects hk le_rfl
    rw [List.take_length, hlen] at htook
    obtain ⟨hready, hpay⟩ := htook.whole
    obtain ⟨hp, rfl⟩ := encodePacket_ok hk
    refine ⟨_, execAll_eq_effects _ hl, ?_⟩
    rw [effects_append, ← decPayload_eq, ← length_decPayload, hpay]
    exact ⟨hready, rfl, rfl, fun h1 => decodePacket_framed h1 (by omega),
      fun h0 => decodePacket_of_length_lt (by simp [h0])⟩

/-- Settles O49: its row of R74, and the rows of the table. -/
theorem decPushFollowsTheTransitionTable : Obligations.DecPushFollowsTheTransitionTable := by
  refine ⟨selects_decPush, fun s b hl => ?_⟩
  rw [exec_of_legal _ hl, ← decPayload_eq]
  refine ⟨fun hs => ⟨?_, fun hb => ?_⟩, fun hs => ⟨?_, fun hb1 hb32 => ?_, fun hb => ?_⟩, fun hs => ?_,
    fun hs => ⟨?_, fun hb => ?_⟩, fun hs => ?_⟩
  · rintro rfl
    rw [effect_decPush_header_ok hs]
    rfl
  · exact (onlyAnswers_iff hl).2 (effect_decPush_header_err hs hb)
  · rintro rfl
    rw [effect_decPush_length_ok hs (by decide)]
    rfl
  · have hb0 : b ≠ 0 := by
      rintro rfl
      exact absurd hb1 (by decide)
    refine ⟨_, setWidth_six_toNat hb32, ?_⟩
    rw [effect_decPush_length_ok hs hb32, if_neg hb0]
    rfl
  · exact (onlyAnswers_iff hl).2 (effect_decPush_length_err hs hb)
  · obtain ⟨hlt, hlt32⟩ := hl.2.2.decCnt_lt hs
    refine ⟨_, rfl, ?_⟩
    rw [effect_decPush_data_append b hs hlt32]
    refine ⟨decCnt_succ hlt32, rfl, Memory.read_write_same .., fun a ha => Memory.read_write_other s.decBuf b ha,
      rfl, ⟨rfl, rfl, rfl⟩, ⟨rfl, rfl, rfl⟩, fun hmore => ?_, fun hlast => ?_⟩
    · rw [if_neg hmore.ne]
      exact ⟨rfl, rfl, rfl⟩
    · rw [if_pos hlast]
      exact ⟨rfl, rfl, rfl⟩
  · rintro rfl
    rw [effect_decPush_crc_ok hs]
    rfl
  · exact (onlyAnswers_iff hl).2 (effect_decPush_crc_err hs hb)
  · exact (onlyAnswers_iff hl).2 (effect_decPush_ready b hs)

/-- Settles O51: its row of R74, and the answer by the state and the index. -/
theorem decRdReadsThePayload : Obligations.DecRdReadsThePayload :=
  ⟨selects_decRd, fun _ i hl =>
    ⟨fun hs => (onlyAnswers_iff hl).2 (if_pos hs), fun hs =>
      ⟨fun hi => (onlyAnswers_iff hl).2 ((effect_decRd_of_ready i hs).trans (if_pos hi)),
       fun hi => (onlyAnswers_iff hl).2 ((effect_decRd_of_ready i hs).trans (if_neg (Nat.not_le.2 hi)))⟩⟩⟩

/-- Settles O53: the OK pushes count the bytes taken, of which a fresh decoder has none. -/
theorem readyTakesLengthPlusThreeOkPushes : Obligations.ReadyTakesLengthPlusThreeOkPushes := by
  intro s t bs hl ht hready
  obtain rfl := Host.Outcome.next.inj ((execAll_eq_effects _ hl).symm.trans ht)
  obtain ⟨rs, hrsp, htaken⟩ := effects_decPush_decTaken bs (effect_legal .decInit hl)
  have hfresh : (effect .decInit s).decTaken = 0 := rfl
  have hlen : (effect .decInit s).rspOut.length = s.rspOut.length + 1 := List.length_append
  rw [effects_cons] at hready ⊢
  rw [← decTaken_of_ready hready, htaken, hfresh, Nat.zero_add, hrsp, ← hlen, List.drop_left,
    List.countP_eq_length_filter]
  rfl

/-- Settles O54: the noise leaves the decoder fresh, so that the packet after it streams as after reset. -/
theorem noiseWithoutHeadersIsSkipped : Obligations.NoiseWithoutHeadersIsSkipped := by
  intro s junk p k hl hjunk hk
  have hnoise := effects_decPush_noise (s := effect .decInit s) hjunk rfl
  have hl' := effects_legal (.decInit :: junk.map .decPush) hl
  have hskip : execAll (.decInit :: junk.map .decPush) s = .next _ := execAll_eq_effects _ hl
  rw [effects_cons, hnoise] at hl' hskip
  refine ⟨⟨_, hskip, rfl, List.append_assoc ..⟩, ?_⟩
  obtain ⟨-, t, ht, hready, -, hpay, -, -⟩ := streamingAFramedPayloadReachesReady _ p k [] hl' hk (.inr ⟨rfl, rfl⟩)
  refine ⟨t, ?_, hready, hpay⟩
  rw [List.map_append, ← List.cons_append]
  exact execAll_append_next.2 ⟨_, hskip, ht⟩

/-- Settles O48: its row of R74, and its effect in a legal state. -/
theorem decInitMakesTheDecoderFresh : Obligations.DecInitMakesTheDecoderFresh :=
  ⟨selects_decInit, fun _ => exec_of_legal .decInit⟩

/-- Settles O50: their rows of R74, and their answers. -/
theorem decStatAndDecLenRead : Obligations.DecStatAndDecLenRead :=
  ⟨selects_decStat, selects_decLen, fun _ hl =>
    ⟨onlyAnswers_decStat hl, onlyAnswers_decStat hl, onlyAnswers_decStat hl, onlyAnswers_decStat hl,
     onlyAnswers_decStat hl, onlyAnswers_decLen hl⟩⟩

end Sys2Proof.Machine
end

section
/-! SUPPORT. The exceptions family: a command answers a status of its row of R198, each cell of the table is answered from
some legal state, and an error leaves the block alone but for `ENC_OVF` (R190, R201). -/

namespace Sys2Proof.Machine

/-! ### No status outside the row (R198) -/

/-- From `s` to `t` the block answered with a status of this row. -/
def AnswersWithin (row : List Status) (s t : State) : Prop := ∃ st ∈ row, ∃ d, Answers s t st d

theorem Answers.within {row : List Status} {s t : State} {st : Status} {d : Byte} (hans : Answers s t st d)
    (hst : st ∈ row := by simp [canAnswer]) : AnswersWithin row s t :=
  ⟨st, hst, d, hans⟩

theorem AnswersWithin.ite {row : List Status} {s t t' : State} (c : Prop) [Decidable c] (h : AnswersWithin row s t)
    (h' : AnswersWithin row s t') : AnswersWithin row s (if c then t else t') := by
  split
  exacts [h, h']

/-- The lines of R143 end in PKT.CHK's row, all of which is PKT.RD's too. -/
theorem pktVerdict_mem_canAnswer (s : State) (n : Nat) :
    pktVerdict s ∈ canAnswer .pktChk ∧ pktVerdict s ∈ canAnswer (.pktRd n) := by
  rw [pktVerdict_eq]
  (repeat' split) <;> simp [canAnswer]

theorem answersWithin_decPush (b : Byte) (s : State) :
    AnswersWithin (canAnswer (.decPush b)) s (effect (.decPush b) s) := by
  cases hs : s.decState with
  | awaitingHeader =>
    rw [effect_decPush_header b hs]
    exact .ite _ (Answers.within ⟨rfl, rfl⟩) (Answers.within ⟨rfl, rfl⟩)
  | awaitingLength =>
    rw [effect_decPush_length b hs]
    exact .ite _ (Answers.within ⟨rfl, rfl⟩) (Answers.within ⟨rfl, rfl⟩)
  | awaitingData =>
    rw [effect_decPush_data b hs]
    exact Answers.within ⟨rfl, rfl⟩
  | awaitingCrc =>
    rw [effect_decPush_crc b hs]
    exact .ite _ (Answers.within ⟨rfl, rfl⟩) (Answers.within ⟨rfl, rfl⟩)
  | ready =>
    rw [effect_decPush_ready b hs]
    exact Answers.within ⟨rfl, rfl⟩

theorem answersWithin_canAnswer (i : Instr) (s : State) : AnswersWithin (canAnswer i) s (effect i s) := by
  cases i with
  | crcInit | crcUpd _ | crcRd | encInit | pktInit | decInit | decStat | decLen => exact Answers.within ⟨rfl, rfl⟩
  | encPut b => exact .ite _ (Answers.within ⟨rfl, rfl⟩) (Answers.within ⟨rfl, rfl⟩)
  | encLen => exact .ite _ (Answers.within ⟨rfl, rfl⟩) (Answers.within ⟨rfl, rfl⟩)
  | encRd n =>
    exact .ite _ (Answers.within ⟨rfl, rfl⟩) (.ite _ (Answers.within ⟨rfl, rfl⟩) (Answers.within ⟨rfl, rfl⟩))
  | pktPut b =>
    rw [effect_pktPut_ite]
    exact .ite _ (Answers.within ⟨rfl, rfl⟩) (Answers.within ⟨rfl, rfl⟩)
  | pktChk =>
    exact .ite _ (Answers.within ⟨rfl, rfl⟩) (Answers.within ⟨rfl, rfl⟩ (pktVerdict_mem_canAnswer s 0).1)
  | pktRd n =>
    exact .ite _ (Answers.within ⟨rfl, rfl⟩ (pktVerdict_mem_canAnswer s n).2)
      (.ite _ (Answers.within ⟨rfl, rfl⟩) (Answers.within ⟨rfl, rfl⟩))
  | decPush b => exact answersWithin_decPush b s
  | decRd n =>
    exact .ite _ (Answers.within ⟨rfl, rfl⟩) (.ite _ (Answers.within ⟨rfl, rfl⟩) (Answers.within ⟨rfl, rfl⟩))

/-! ### Every cell of the row (R198) -/

/-- Some command of `i`'s opcode answers this status in some legal state. -/
def CellAnswered (i : Instr) (st : Status) : Prop :=
  ∃ (j : Instr) (s t : State) (d : Byte),
    cmdOpcode (encode j) = cmdOpcode (encode i) ∧ s.Legal ∧ exec j s = .next t ∧ Answers s t st d

theorem cellAnswered_of_effect {i j : Instr} {st : Status} {s : State} {d : Byte}
    (hop : cmdOpcode (encode j) = cmdOpcode (encode i)) (hl : s.Legal) (h : Answers s (effect j s) st d) :
    CellAnswered i st :=
  ⟨j, s, _, d, hop, hl, exec_of_legal j hl, h⟩

theorem cellAnswered_of_onlyAnswers {i j : Instr} {st : Status} {s : State} {d : Byte}
    (hop : cmdOpcode (encode j) = cmdOpcode (encode i)) (hl : s.Legal) (h : OnlyAnswers j s st d) : CellAnswered i st :=
  ⟨j, s, _, d, hop, hl, h, rfl, rfl⟩

theorem legal_reset : State.reset.Legal := by decide

/-- The framer after its 33rd byte. -/
def encOverflowed : State := { State.reset with encLen := 32, encOvf := true }

theorem legal_encOverflowed : encOverflowed.Legal := by decide

/-- The deframer holding four bytes. -/
def pktOfFour (buf : Memory) : State := { State.reset with pktBuf := buf, pktLen := 4 }

theorem legal_pktOfFour (buf : Memory) : (pktOfFour buf).Legal :=
  ⟨legal_reset.1, ⟨(by decide : 4 ≤ 258), nofun⟩, legal_reset.2.2⟩

/-- A packet with payload 0x81. -/
def pktSound : State := pktOfFour [(0, 0xD5), (1, 0x01), (2, 0x81), (3, 0xD2)]

theorem legal_pktSound : pktSound.Legal := legal_pktOfFour _

theorem pktVerdict_pktSound : pktVerdict pktSound = .ok := by rfl

/-- The stream decoder in this state, with no payload bytes. -/
def decEmpty (d : DecState) : State := { State.reset with decState := d }

theorem legal_decEmpty {d : DecState} (h : d ≠ .awaitingData) : (decEmpty d).Legal := by
  cases d with
  | awaitingData => exact absurd rfl h
  | awaitingHeader | awaitingLength | awaitingCrc | ready => decide

/-- The stream decoder in Ready with a one-byte payload. -/
def decOneByte : State := { State.reset with decState := .ready, decExpLen := 1, decCnt := 1 }

theorem legal_decOneByte : decOneByte.Legal := by decide

/-- A packet for each line of R143: a sound one, none, one with no header, one with length byte 0, one with CRC byte 0. -/
theorem exists_pktVerdict {st : Status} (h : st ∈ canAnswer .pktChk) : ∃ s : State, s.Legal ∧ pktVerdict s = st := by
  simp only [canAnswer, List.mem_cons, List.not_mem_nil, or_false] at h
  obtain rfl | rfl | rfl | rfl | rfl := h
  · exact ⟨pktSound, legal_pktSound, pktVerdict_pktSound⟩
  · exact ⟨State.reset, legal_reset, rfl⟩
  · exact ⟨pktOfFour [], legal_pktOfFour _, rfl⟩
  · exact ⟨pktOfFour [(0, 0xD5)], legal_pktOfFour _, rfl⟩
  · exact ⟨pktOfFour [(0, 0xD5), (1, 0x01), (2, 0x81)], legal_pktOfFour _, rfl⟩

theorem cellAnswered_encRd (n : Nat) {st : Status} (h : st ∈ canAnswer (.encRd n)) : CellAnswered (.encRd n) st := by
  have hop (k : Nat) : cmdOpcode (encode (.encRd k)) = cmdOpcode (encode (.encRd n)) := by simp [encode]
  simp only [canAnswer, List.mem_cons, List.not_mem_nil, or_false] at h
  obtain rfl | rfl | rfl := h
  · exact cellAnswered_of_onlyAnswers (hop 0) legal_reset (onlyAnswers_encRd_packetByte legal_reset rfl (by decide))
  · exact cellAnswered_of_effect rfl legal_encOverflowed ⟨rfl, rfl⟩
  · exact cellAnswered_of_onlyAnswers (hop 3) legal_reset (onlyAnswers_encRd_rangeErr legal_reset rfl (by decide))

theorem cellAnswered_pktChk {st : Status} (h : st ∈ canAnswer .pktChk) : CellAnswered .pktChk st := by
  obtain ⟨s, hl, hv⟩ := exists_pktVerdict h
  by_cases hok : st = .ok
  · subst hok
    exact cellAnswered_of_onlyAnswers rfl hl (onlyAnswers_pktChk_ok hl hv)
  · exact cellAnswered_of_onlyAnswers rfl hl (onlyAnswers_pktChk_error hl hv hok)

theorem cellAnswered_pktRd (n : Nat) {st : Status} (h : st ∈ canAnswer (.pktRd n)) : CellAnswered (.pktRd n) st := by
  have hop (k : Nat) : cmdOpcode (encode (.pktRd k)) = cmdOpcode (encode (.pktRd n)) := by simp [encode]
  by_cases hok : st = .ok
  · subst hok
    exact cellAnswered_of_onlyAnswers (hop 0) legal_pktSound
      (onlyAnswers_pktRd_payload legal_pktSound pktVerdict_pktSound (by decide))
  by_cases hrange : st = .rangeErr
  · subst hrange
    exact cellAnswered_of_onlyAnswers (hop 1) legal_pktSound
      (onlyAnswers_pktRd_rangeErr legal_pktSound pktVerdict_pktSound (by decide))
  · obtain ⟨s, hl, hv⟩ := exists_pktVerdict (st := st) (by simpa [canAnswer, hrange] using h)
    exact cellAnswered_of_onlyAnswers rfl hl (onlyAnswers_pktRd_error n hl hv hok)

theorem cellAnswered_decPush (b : Byte) {st : Status} (h : st ∈ canAnswer (.decPush b)) :
    CellAnswered (.decPush b) st := by
  have hop (c : Byte) : cmdOpcode (encode (.decPush c)) = cmdOpcode (encode (.decPush b)) := by simp [encode]
  simp only [canAnswer, List.mem_cons, List.not_mem_nil, or_false] at h
  obtain rfl | rfl | rfl | rfl | rfl := h
  · exact cellAnswered_of_effect (hop 0xD5) (legal_decEmpty (d := .awaitingHeader) (by decide)) ⟨rfl, rfl⟩
  · exact cellAnswered_of_effect (hop 0x00) (legal_decEmpty (d := .awaitingHeader) (by decide)) ⟨rfl, rfl⟩
  · exact cellAnswered_of_effect (hop 0x21) (legal_decEmpty (d := .awaitingLength) (by decide)) ⟨rfl, rfl⟩
  · exact cellAnswered_of_effect (hop 0x01) (legal_decEmpty (d := .awaitingCrc) (by decide)) ⟨rfl, rfl⟩
  · exact cellAnswered_of_effect rfl (legal_decEmpty (d := .ready) (by decide)) ⟨rfl, rfl⟩

theorem cellAnswered_decRd (n : Nat) {st : Status} (h : st ∈ canAnswer (.decRd n)) : CellAnswered (.decRd n) st := by
  have hop (k : Nat) : cmdOpcode (encode (.decRd k)) = cmdOpcode (encode (.decRd n)) := by simp [encode]
  simp only [canAnswer, List.mem_cons, List.not_mem_nil, or_false] at h
  obtain rfl | rfl | rfl := h
  · exact cellAnswered_of_effect (hop 0) legal_decOneByte ⟨rfl, rfl⟩
  · exact cellAnswered_of_effect (hop 1) legal_decOneByte ⟨rfl, rfl⟩
  · exact cellAnswered_of_effect rfl legal_reset ⟨rfl, rfl⟩

theorem cellAnswered_of_mem_canAnswer {i : Instr} {st : Status} (h : st ∈ canAnswer i) : CellAnswered i st := by
  cases i with
  | crcInit | crcUpd _ | crcRd | encInit | pktInit | pktPut _ | decInit | decStat | decLen =>
    obtain rfl := List.mem_singleton.1 h
    exact cellAnswered_of_effect rfl legal_reset ⟨rfl, rfl⟩
  | encPut _ | encLen =>
    obtain rfl | rfl : st = .ok ∨ st = .lengthErr := by simpa [canAnswer] using h
    · exact cellAnswered_of_effect rfl legal_reset ⟨rfl, rfl⟩
    · exact cellAnswered_of_effect rfl legal_encOverflowed ⟨rfl, rfl⟩
  | encRd n => exact cellAnswered_encRd n h
  | pktChk => exact cellAnswered_pktChk h
  | pktRd n => exact cellAnswered_pktRd n h
  | decPush b => exact cellAnswered_decPush b h
  | decRd n => exact cellAnswered_decRd n h

/-! ### What an error leaves of the block (R190, R201) -/

/-- The next state of a command that answers an error: only the response, or that and the ENC.PUT's `ENC_OVF`. -/
theorem effect_of_answers_error {i : Instr} {s : State} {st : Status} {d : Byte} (hans : Answers s (effect i s) st d)
    (hst : st ≠ .ok) : d = 0x00 ∧ (effect i s = s.respondErr st ∨
      (∃ b, i = .encPut b) ∧ st = .lengthErr ∧ effect i s = s.setEncOvf.respondErr .lengthErr) := by
  obtain ⟨t, d', he, hr, hc⟩ | ⟨st', -, he⟩ | ⟨b, hi, -, he⟩ := effect_cases i s
  · have hok : Answers s (effect i s) .ok d' := by
      rw [he]
      exact ⟨by simp [hr], hc⟩
    exact absurd (hans.unique hok).1 hst
  · obtain ⟨rfl, rfl⟩ := hans.unique (st' := st') (d' := 0x00) (by rw [he]; exact ⟨rfl, rfl⟩)
    exact ⟨rfl, .inl he⟩
  · obtain ⟨rfl, rfl⟩ := hans.unique (st' := .lengthErr) (d' := 0x00) (by rw [he]; exact ⟨rfl, rfl⟩)
    exact ⟨rfl, .inr ⟨⟨b, hi⟩, rfl, he⟩⟩

/-! ### The obligations -/

/-- Settles O17: the branches of each command answer within its row; each cell has a legal state that answers it; a
reserved word's only meaning is its answer. -/
theorem whichCommandAnswersWhichStatus : Obligations.WhichCommandAnswersWhichStatus := by
  refine ⟨fun i s t ht => ?_, fun _ _ => cellAnswered_of_mem_canAnswer, fun w s t ⟨e, he⟩ ht => ?_⟩
  · obtain ⟨-, rfl⟩ := exec_next ht
    exact answersWithin_canAnswer i s
  · rw [transact_of_decode_error s he] at ht
    obtain ⟨-, rfl⟩ := onLegal_next ht
    exact ⟨rfl, rfl⟩

/-- Settles O18: an error's effect is its response, or the overflowing ENC.PUT's response and flag. -/
theorem errorsChangeNothingButEncOvf : Obligations.ErrorsChangeNothingButEncOvf := by
  intro i s t st d ht hans hst
  obtain ⟨-, rfl⟩ := exec_next ht
  obtain ⟨hd, he | ⟨hput, hlen, he⟩⟩ := effect_of_answers_error hans hst <;> rw [he]
  · exact ⟨hd, rfl, ⟨rfl, rfl, rfl⟩, ⟨rfl, rfl, rfl, rfl⟩, rfl, rfl, .inl rfl⟩
  · exact ⟨hd, rfl, ⟨rfl, rfl, rfl⟩, ⟨rfl, rfl, rfl, rfl⟩, rfl, rfl, .inr ⟨hput, hlen, rfl⟩⟩

end Sys2Proof.Machine
end

section
/-! SUPPORT. The reset and hazards family: the four INITs and reset by `rst` (R220, R221), the host that owes the decoder a
DEC.INIT (R226, R227, R228), and how many edges an answer and an acceptance take (R232). -/

namespace Sys2Proof.Machine

/-! ### Reset and the four INITs (R220) -/

theorem ObsEq.refl (s : State) : ObsEq s s :=
  ⟨rfl, rfl, rfl, fun _ _ => rfl, rfl, rfl, fun _ _ => rfl, rfl, rfl, rfl, fun _ _ => rfl, rfl, rfl⟩

/-- The four INITs set what `rst` sets, and give four OK answers. -/
theorem effects_four_inits (s : State) : effects [.crcInit, .encInit, .pktInit, .decInit] s =
    { s.resetBlock with rspOut := s.rspOut ++ List.replicate 4 (rspWord .ok 0x00) } := by
  have hrsp : (effects [.crcInit, .encInit, .pktInit, .decInit] s).rspOut =
      s.rspOut ++ List.replicate 4 (rspWord .ok 0x00) := by simp [effects, effect, List.replicate]
  rw [← hrsp]
  rfl

/-- At reset all counters are zero, so whatever the buffers hold lies above them. -/
theorem obsEq_reset_resetBlock (s : State) :
    ObsEq { State.reset with cmdIn := s.cmdIn, rspOut := s.rspOut } s.resetBlock where
  crcAcc := rfl
  encLen := rfl
  encOvf := rfl
  encBuf := fun a ha => absurd ha (Nat.not_lt_zero a)
  pktLen := rfl
  pktOvf := rfl
  pktBuf := fun a ha => absurd ha (Nat.not_lt_zero a)
  decState := rfl
  decExpLen := rfl
  decCnt := rfl
  decBuf := fun a ha => absurd ha (Nat.not_lt_zero a)
  cmdIn := rfl
  rspOut := rfl

/-! ### The host's discipline with the decoder (R226, R227, R228) -/

/-- Only DEC.INIT pays the debt. -/
theorem owesInit_of_owed {i : Instr} (hi : i ≠ .decInit) (s t : State) : owesInit true i s t = true := by
  unfold owesInit
  split
  · exact absurd rfl hi
  · simp
  · rfl

/-- The invariant behind R228: when the decoder is Ready, the host owes a DEC.INIT. -/
theorem owesInit_of_ready {owed : Bool} {i : Instr} {s : State} (hinv : s.decState = .ready → owed = true)
    (ht : (effect i s).decState = .ready) : owesInit owed i s (effect i s) = true := by
  obtain ⟨-, hsame, -, -⟩ | rfl | ⟨b, rfl⟩ := effect_dec_cases i s
  · have hi : i ≠ .decInit := by
      rintro rfl
      cases ht
    rw [hinv (hsame ▸ ht)]
    exact owesInit_of_owed hi _ _
  · cases ht
  · simp [owesInit, ht]

/-- A disciplined host never pushes a byte to a Ready decoder. -/
theorem Disciplined.not_ready_at_push {owed : Bool} {pre post : List Instr} {b : Byte} {s u : State}
    (hinv : s.decState = .ready → owed = true) (h : Disciplined owed (pre ++ .decPush b :: post) s)
    (hu : execAll pre s = .next u) : u.decState ≠ .ready := by
  induction pre generalizing owed s with
  | nil =>
    obtain ⟨hpush, -⟩ := h
    obtain rfl : s = u := Host.Outcome.next.inj hu
    intro hready
    exact Bool.false_ne_true ((hpush rfl).symm.trans (hinv hready))
  | cons i pre ih =>
    obtain ⟨-, hrest⟩ := h
    obtain ⟨t, ht, hpre⟩ := execAll_cons_next.1 hu
    obtain ⟨-, rfl⟩ := exec_next ht
    exact ih (owesInit_of_ready hinv) (hrest _ ht) hpre

/-- R163 to R166: a decoder that is not Ready answers a push with a status other than STATE_ERR. -/
theorem answersWithin_decPush_of_not_ready (b : Byte) {s : State} (h : s.decState ≠ .ready) :
    AnswersWithin [.ok, .headerErr, .lengthFieldErr, .crcErr] s (effect (.decPush b) s) := by
  cases hs : s.decState with
  | awaitingHeader =>
    rw [effect_decPush_header b hs]
    exact .ite _ (Answers.within ⟨rfl, rfl⟩ (by simp)) (Answers.within ⟨rfl, rfl⟩ (by simp))
  | awaitingLength =>
    rw [effect_decPush_length b hs]
    exact .ite _ (Answers.within ⟨rfl, rfl⟩ (by simp)) (Answers.within ⟨rfl, rfl⟩ (by simp))
  | awaitingData =>
    rw [effect_decPush_data b hs]
    exact Answers.within ⟨rfl, rfl⟩ (by simp)
  | awaitingCrc =>
    rw [effect_decPush_crc b hs]
    exact .ite _ (Answers.within ⟨rfl, rfl⟩ (by simp)) (Answers.within ⟨rfl, rfl⟩ (by simp))
  | ready => exact absurd hs h

/-- R167: only a Ready decoder answers a push STATE_ERR. -/
theorem ready_of_decPush_stateErr {b d : Byte} {s : State} (h : Answers s (effect (.decPush b) s) .stateErr d) :
    s.decState = .ready := by
  by_contra hs
  obtain ⟨st, hst, d', hans⟩ := answersWithin_decPush_of_not_ready b hs
  obtain ⟨rfl, -⟩ := h.unique hans
  simp at hst

/-! ### Runs of edges towards an answer (R232) -/

/-- An edge that shows nothing adds nothing to a run. -/
theorem run_cons_of_wait {p q : PortState} {i : PinsIn} {is : List PinsIn} {tr : PortTrace} (hq : p.clock i = .next q)
    (ha : p.accepts i = none) (hd : p.delivers i = none) (h : q.run is = .next tr) : p.run (i :: is) = .next tr := by
  simp [PortState.run, hq, h, ha, hd]

theorem run_singleton {p q : PortState} {i : PinsIn} (hq : p.clock i = .next q) :
    p.run [i] = .next ⟨(p.accepts i).toList, (p.delivers i).toList, q⟩ := by
  simp [PortState.run, hq]

/-- R11 at the pins: from a legal block an acceptance completes. -/
theorem onAccept_of_legal {p : PortState} (w : CmdWord) (h : p.core.Legal) : ∃ q, p.onAccept w = .next q := by
  obtain ⟨t, ht, -⟩ := transact_of_legal w (s := { p.core with rspOut := [] }) h
  simp [PortState.onAccept, ht]

/-- An outstanding response `n` edges away is delivered by `n + 1` edges with `rsp_ready` = 1. -/
theorem run_delivers {p : PortState} {r : RspWord} {n : Nat} {i : PinsIn} (hp : p.phase = .answering r n)
    (hrst : i.rst = false) (hready : i.rspReady = true) :
    ∃ tr, p.run (List.replicate (n + 1) i) = .next tr ∧ tr.delivered = [r] ∧ tr.accepted = [] := by
  have ha := accepts_of_answering hp i
  induction n generalizing p with
  | zero =>
    have hq : p.clock i = .next (p.onDeliver r) := by simp [PortState.clock, hrst, hp, hready]
    have hd : p.delivers i = some r := by simp [PortState.delivers, PortState.outputs, hp, hrst, hready]
    exact ⟨_, run_singleton hq, by simp [hd], by simp [ha]⟩
  | succ n ih =>
    have hq : p.clock i = .next { p with phase := .answering r n } := by simp [PortState.clock, hrst, hp]
    have hd : p.delivers i = none := by simp [PortState.delivers, PortState.outputs, hp]
    obtain ⟨tr, hrun, hshown⟩ := ih (p := { p with phase := .answering r n }) rfl (accepts_of_answering rfl i)
    exact ⟨tr, run_cons_of_wait hq ha hd hrun, hshown⟩

/-- A block ready in `n` edges accepts by `n + 1` edges the word offered at each of them. -/
theorem run_accepts {p : PortState} {n : Nat} {i : PinsIn} (hp : p.phase = .accepting n) (hl : p.core.Legal)
    (hrst : i.rst = false) (hvalid : i.cmdValid = true) :
    ∃ tr, p.run (List.replicate (n + 1) i) = .next tr ∧ tr.accepted = [i.cmd] ∧ tr.delivered = [] := by
  have hd : p.delivers i = none := by simp [PortState.delivers, PortState.outputs, hp]
  induction n generalizing p with
  | zero =>
    obtain ⟨q, hacc⟩ := onAccept_of_legal i.cmd hl
    have hq : p.clock i = .next q := by simp [PortState.clock, hrst, hp, hvalid, hacc]
    have ha : p.accepts i = some i.cmd := by simp [PortState.accepts, PortState.outputs, hp, hrst, hvalid]
    exact ⟨_, run_singleton hq, by simp [ha], by simp [hd]⟩
  | succ n ih =>
    have hq : p.clock i = .next { p with phase := .accepting n } := by simp [PortState.clock, hrst, hp]
    have ha : p.accepts i = none := by simp [PortState.accepts, PortState.outputs, hp]
    obtain ⟨tr, hrun, hshown⟩ := ih (p := { p with phase := .accepting n }) rfl hl
      (by simp [PortState.delivers, PortState.outputs])
    exact ⟨tr, run_cons_of_wait hq ha hd hrun, hshown⟩

/-! ### The edge that resets (R220, R221) -/

theorem clock_of_rst {p : PortState} {i : PinsIn} (h : i.rst = true) : p.clock i = .next p.onReset := if_pos h

theorem accepts_of_rst {p : PortState} {i : PinsIn} (h : i.rst = true) : p.accepts i = none := by
  simp [PortState.accepts, h]

theorem delivers_of_rst {p : PortState} {i : PinsIn} (h : i.rst = true) : p.delivers i = none := by
  simp [PortState.delivers, h]

/-! ### The obligations -/

/-- Settles O23: the four INITs leave the block as `rst` does, and the reset state differs at most in the buffers. -/
theorem resetEqualsTheFourInits : Obligations.ResetEqualsTheFourInits := by
  refine fun s hl => ⟨⟨_, execAll_eq_effects _ hl, ?_⟩, obsEq_reset_resetBlock s⟩
  rw [effects_four_inits]
  exact ⟨rfl, ObsEq.refl s.resetBlock⟩

/-- Settles O24: the host owes a DEC.INIT whenever the decoder is Ready, and only then would a push answer STATE_ERR. -/
theorem disciplinedHostsLoseNoByte : Obligations.DisciplinedHostsLoseNoByte := by
  rintro s _ pre post b u v hs hdisc rfl hu hv hans
  obtain ⟨-, rfl⟩ := exec_next hv
  exact hdisc.not_ready_at_push (fun h => absurd h hs) hu (ready_of_decPush_stateErr hans)

/-- Settles O59: by induction over the edges still to wait; at the last one the word is delivered or accepted. -/
theorem everyAcceptedCommandIsAnswered : Obligations.EveryAcceptedCommandIsAnswered :=
  ⟨fun _ _ _ _ => run_delivers, fun _ _ _ => run_accepts⟩

/-- Settles O57: under `rst` nothing is shown and the block resets; before the first reset an edge without it is refused. -/
theorem resetEdgeResetsTheBlock : Obligations.ResetEdgeResetsTheBlock := by
  refine fun p i => ⟨fun hrst => ?_, fun hrst hp => by simp [PortState.clock, hrst, hp]⟩
  exact ⟨accepts_of_rst hrst, delivers_of_rst hrst, p.onReset, _, clock_of_rst hrst, rfl,
    rfl, rfl, rfl, rfl, rfl, rfl, rfl, rfl, rfl⟩

end Sys2Proof.Machine
end
